-- ==== Sys2Proof/Word.lean ====
section
/-! DEFINITION. The word of this hardware: the Cell. A Cell, "a signed integer; the tape's unit of storage and of operand
encoding", is ONE mathematical integer, a Lean `Int`, and never bytes (00_scope.md R6 and glossary, 20_memory.md R34; log 4).
Its range for a width is below. -/

namespace Sys2Proof

/-- The least value of a Cell of `w` bits, `-(2^(w-1))` (00_scope.md R5). -/
def cellMin (w : Nat) : Int := -((2 ^ (w - 1) : Nat) : Int)

/-- The greatest value of a Cell of `w` bits, `2^(w-1) - 1` (00_scope.md R5). -/
def cellMax (w : Nat) : Int := ((2 ^ (w - 1) : Nat) : Int) - 1

end Sys2Proof
end

