-- ==== Sys2Proof/Syntax.lean ====
section
/-! DEFINITION. The closed sets of the spec: addressing modes, instructions, fault kinds, run statuses, the answers of
the input port, and the assembly notation. -/

namespace Sys2Proof

/-- The two addressing modes (30_encoding.md R54). -/
inductive Mode where
  /-- Digit 0: the parameter is the address of the operand. -/
  | position
  /-- Digit 1: the parameter is the operand. -/
  | immediate
  deriving DecidableEq, Repr

/-- The decoded Instruction, "(Operation, ordered list of AddressingMode)", one mode per parameter, the destination's
included (30_encoding.md R52, R53). Parameter cells are no part of it: the resolver reads them during the step
(40_execution_loop.md R73; log 7). Every term is an instruction the encoding admits. -/
inductive Instr where
  /-- Add, opcode 1 (41_arithmetic.md R90): modes of lhs, rhs, destination. -/
  | add (m1 m2 m3 : Mode)
  /-- Multiply, opcode 2 (41_arithmetic.md R91): modes of lhs, rhs, destination. -/
  | multiply (m1 m2 m3 : Mode)
  /-- Read, opcode 3 (42_io.md R97): mode of the destination. -/
  | read (m1 : Mode)
  /-- Write, opcode 4 (42_io.md R98): mode of the source. -/
  | write (m1 : Mode)
  /-- JumpIfTrue, opcode 5 (43_branch.md R100): modes of the tested value and of the target. -/
  | jumpIfTrue (m1 m2 : Mode)
  /-- JumpIfFalse, opcode 6 (43_branch.md R101): modes of the tested value and of the target. -/
  | jumpIfFalse (m1 m2 : Mode)
  /-- LessThan, opcode 7 (44_compare.md R105): modes of lhs, rhs, destination. -/
  | lessThan (m1 m2 m3 : Mode)
  /-- Equals, opcode 8 (44_compare.md R106): modes of lhs, rhs, destination. -/
  | equals (m1 m2 m3 : Mode)
  /-- Halt, opcode 99 (45_halt.md R110). -/
  | halt
  deriving DecidableEq, Repr

/-- The fault kinds the core can raise (60_exceptions.md R121). `NotFound` is no value of `fault_kind` and is the
harness's result only (Machine/Harness.lean). -/
inductive FaultKind where
  | addressOutOfBounds
  | unknownOpcode
  | invalidModeDigit
  | exhaustedInput
  | parseError
  | ioError
  | arithmeticOverflow
  deriving DecidableEq, Repr

/-- The run status (10_state.md R14). -/
inductive Status where
  | running
  | halted
  | faulted
  deriving DecidableEq, Repr

/-- The kinds `K` an input port can fail with (42_io.md R95). -/
inductive InputFailure where
  | exhaustedInput
  | parseError
  | ioError
  deriving DecidableEq, Repr

/-- The three answers of the input port to one request (42_io.md R95). -/
inductive Answer where
  /-- The source has a next value, which is consumed. -/
  | value (c : Int)
  /-- The source cannot give a Cell: Read raises this fault. -/
  | fail (k : InputFailure)
  /-- No value yet: the Read is held. -/
  | wait
  deriving DecidableEq, Repr, Inhabited

/-- What a source answers once its listed answers are used up (42_io.md R95). -/
inductive Thereafter where
  /-- The same answer to every request. -/
  | always (a : Answer)
  /-- The answers of the uninterpreted stream `stream`, from its request `request` on: an oracle "under no law except that a
  `value` carries a Cell in range" (R95; `Config.portAnswer`, log 5). -/
  | oracle (stream request : Nat)
  deriving DecidableEq, Repr

/-- The input source `IN` (10_state.md R19) as plain data: its coming answers in order, and what it answers after them, which
may be an oracle with no known answer. DESIGN CHOICE of representation (log 5). -/
structure InputSource where
  answers : List Answer
  thereafter : Thereafter
  deriving DecidableEq, Repr

/-- "A model with a finite list of inputs and no host activity": the values, then ExhaustedInput (42_io.md R95). -/
def InputSource.ofValues (vs : List Int) : InputSource :=
  { answers := vs.map .value, thereafter := .always (.fail .exhaustedInput) }

/-- A source operand of the assembly notation: `[n]` or `#n` (30_encoding.md R64). -/
inductive Operand where
  | position (n : Int)
  | immediate (n : Int)
  deriving DecidableEq, Repr

/-- A line of the assembly notation (30_encoding.md R64); a destination `-> [n]` is its address `n`. -/
inductive AsmLine where
  | add (lhs rhs : Operand) (dest : Int)
  | multiply (lhs rhs : Operand) (dest : Int)
  | read (dest : Int)
  | write (val : Operand)
  | jumpIfTrue (lhs rhs : Operand)
  | jumpIfFalse (lhs rhs : Operand)
  | lessThan (lhs rhs : Operand) (dest : Int)
  | equals (lhs rhs : Operand) (dest : Int)
  | halt
  /-- `.cell n`: one data cell. -/
  | data (n : Int)
  deriving DecidableEq, Repr

end Sys2Proof
end

