-- ==== Sys2Proof/Decode.lean ====
section
/-! DEFINITION. The instruction decoder (30_encoding.md R50 to R62), the encoder, and the assembler of R64. -/

namespace Sys2Proof

/-- `dig(v, i)`: decimal digit `i` of `v`, digit 0 the least significant (00_scope.md R6). -/
def dig (v i : Nat) : Nat := v / 10 ^ i % 10

/-- A mode digit: 0 Position, 1 Immediate, any other InvalidModeDigit (30_encoding.md R54, R58). -/
def decodeMode (d : Nat) : Except FaultKind Mode :=
  if d = 0 then .ok .position else if d = 1 then .ok .immediate else .error .invalidModeDigit

/-- Format F1: one mode digit (30_encoding.md R51). -/
def decodeF1 (mk : Mode → Instr) (v : Nat) : Except FaultKind Instr :=
  match decodeMode (dig v 2) with
  | .error k => .error k
  | .ok m1 => .ok (mk m1)

/-- Format F2: two mode digits, parameter 1's checked first (30_encoding.md R51, R52). -/
def decodeF2 (mk : Mode → Mode → Instr) (v : Nat) : Except FaultKind Instr :=
  match decodeMode (dig v 2) with
  | .error k => .error k
  | .ok m1 =>
    match decodeMode (dig v 3) with
    | .error k => .error k
    | .ok m2 => .ok (mk m1 m2)

/-- Format F3: three mode digits, checked lowest first; the third, a destination's, is checked like any other
(30_encoding.md R51, R52, R59). -/
def decodeF3 (mk : Mode → Mode → Mode → Instr) (v : Nat) : Except FaultKind Instr :=
  match decodeMode (dig v 2) with
  | .error k => .error k
  | .ok m1 =>
    match decodeMode (dig v 3) with
    | .error k => .error k
    | .ok m2 =>
      match decodeMode (dig v 4) with
      | .error k => .error k
      | .ok m3 => .ok (mk m1 m2 m3)

/-- `Decode(v)` for `v >= 0`: the opcode map of 30_encoding.md R53 on `v mod 100`, then the mode digits. The numbers 4 to
8 are the spec's decision D3 (log 8). Digits above the last mode digit are not looked at (R60; log 9). -/
def decodeNat (v : Nat) : Except FaultKind Instr :=
  match v % 100 with
  | 1 => decodeF3 .add v
  | 2 => decodeF3 .multiply v
  | 3 => decodeF1 .read v
  | 4 => decodeF1 .write v
  | 5 => decodeF2 .jumpIfTrue v
  | 6 => decodeF2 .jumpIfFalse v
  | 7 => decodeF3 .lessThan v
  | 8 => decodeF3 .equals v
  | 99 => .ok .halt
  | _ => .error .unknownOpcode

/-- `Decode(v)` (30_encoding.md R52): total on Cells; a negative cell is UnknownOpcode (R55), so is an opcode outside the
nine (R56, R57), and a mode digit 2 to 9 is InvalidModeDigit (R58). -/
def decode (v : Int) : Except FaultKind Instr :=
  if v < 0 then .error .unknownOpcode else decodeNat v.toNat

/-- The number of parameters of the operation (30_encoding.md R51, R53). -/
def Instr.arity (i : Instr) : Nat :=
  match i with
  | .add _ _ _ => 3
  | .multiply _ _ _ => 3
  | .read _ => 1
  | .write _ => 1
  | .jumpIfTrue _ _ => 2
  | .jumpIfFalse _ _ => 2
  | .lessThan _ _ _ => 3
  | .equals _ _ _ => 3
  | .halt => 0

/-- The length of an instruction in cells, `1 + arity` (30_encoding.md R62). -/
def Instr.length (i : Instr) : Nat := 1 + i.arity

/-- The mode digit of a mode (30_encoding.md R54). -/
def Mode.digit (m : Mode) : Nat :=
  match m with
  | .position => 0
  | .immediate => 1

/-- The instruction cell `opcode + 100 * m1 + 1000 * m2 + 10000 * m3` (30_encoding.md R53, R64), with no digit above the
last mode digit. -/
def encode (i : Instr) : Int :=
  match i with
  | .add m1 m2 m3 => ((1 + 100 * m1.digit + 1000 * m2.digit + 10000 * m3.digit : Nat) : Int)
  | .multiply m1 m2 m3 => ((2 + 100 * m1.digit + 1000 * m2.digit + 10000 * m3.digit : Nat) : Int)
  | .read m1 => ((3 + 100 * m1.digit : Nat) : Int)
  | .write m1 => ((4 + 100 * m1.digit : Nat) : Int)
  | .jumpIfTrue m1 m2 => ((5 + 100 * m1.digit + 1000 * m2.digit : Nat) : Int)
  | .jumpIfFalse m1 m2 => ((6 + 100 * m1.digit + 1000 * m2.digit : Nat) : Int)
  | .lessThan m1 m2 m3 => ((7 + 100 * m1.digit + 1000 * m2.digit + 10000 * m3.digit : Nat) : Int)
  | .equals m1 m2 m3 => ((8 + 100 * m1.digit + 1000 * m2.digit + 10000 * m3.digit : Nat) : Int)
  | .halt => 99

/-- The mode a source operand of the notation assembles to (30_encoding.md R64). -/
def Operand.mode (o : Operand) : Mode :=
  match o with
  | .position _ => .position
  | .immediate _ => .immediate

/-- The parameter cell a source operand of the notation assembles to (30_encoding.md R64). -/
def Operand.param (o : Operand) : Int :=
  match o with
  | .position n => n
  | .immediate n => n

/-- The cells a line of the notation assembles to; "a destination ... always assembles with mode digit 0"
(30_encoding.md R64). -/
def assembleLine (l : AsmLine) : List Int :=
  match l with
  | .add x y d => [encode (.add x.mode y.mode .position), x.param, y.param, d]
  | .multiply x y d => [encode (.multiply x.mode y.mode .position), x.param, y.param, d]
  | .read d => [encode (.read .position), d]
  | .write x => [encode (.write x.mode), x.param]
  | .jumpIfTrue x y => [encode (.jumpIfTrue x.mode y.mode), x.param, y.param]
  | .jumpIfFalse x y => [encode (.jumpIfFalse x.mode y.mode), x.param, y.param]
  | .lessThan x y d => [encode (.lessThan x.mode y.mode .position), x.param, y.param, d]
  | .equals x y d => [encode (.equals x.mode y.mode .position), x.param, y.param, d]
  | .halt => [encode .halt]
  | .data n => [n]

/-- The listing a program in the notation assembles to, in address order from 0 (30_encoding.md R64). -/
def assemble (ls : List AsmLine) : List Int := ls.flatMap assembleLine

/-- The cells of an instruction given as one number of `nbits` bits, as the host's opcode table numbers them: cell `k`
is bits `64 k` to `64 k + 63`, two's complement, at the default `CELLW = 64`, and every bit from `nbits` up is 0. Four
cells, the longest instruction. DESIGN CHOICE (log 3): the hardware itself numbers no bits (00_scope.md R6). -/
def tableCells (nbits w : Nat) : List Int :=
  [0, 1, 2, 3].map fun k => (BitVec.ofNat 64 ((w % 2 ^ nbits) >>> (64 * k))).toInt

/-- The instruction the decoder reads from the instruction cell of such a number. -/
def decodeTableWord (nbits w : Nat) : Option Instr :=
  match tableCells nbits w with
  | [] => none
  | v :: _ =>
    match decode v with
    | .ok i => some i
    | .error _ => none

end Sys2Proof
end

