-- ==== Sys2Proof/Config.lean ====
section
/-! DEFINITION. The parameters of the hardware that are fixed for a run (00_scope.md R5), and the free answers of the input
port. -/

namespace Sys2Proof

/-- The width parameter of 00_scope.md R5. `IMAGE`, `LEN` and `INPUT`, the other arguments of a run, are arguments
of `Machine.resetWith`; `LEGACY_SKIP` is fixed to absent (30_encoding.md R57) and so is no field. -/
structure Config where
  /-- `CELLW`: bits of a Cell, two's complement range; at least 16. -/
  cellw : Nat
  deriving DecidableEq, Repr

/-- The default of R5: `CELLW = 64`. DESIGN CHOICE only in so far as `State.reset` uses it (log 1). -/
def Config.default : Config := { cellw := 64 }

/-- `CMIN = -(2^(CELLW-1))` (R5). -/
def Config.cmin (c : Config) : Int := cellMin c.cellw

/-- `CMAX = 2^(CELLW-1) - 1` (R5). -/
def Config.cmax (c : Config) : Int := cellMax c.cellw

/-- A Cell is an integer `v` with `CMIN <= v <= CMAX` (R6). -/
abbrev Config.InRange (c : Config) (v : Int) : Prop := c.cmin ≤ v ∧ v ≤ c.cmax

/-- The FREE VALUE of the input port: what stream `stream` answers to its request `request`, "an oracle under no law" (42_io.md
R95; `INPUT` of 00_scope.md R5). It has no body, so a claim about it holds for every sequence of answers (log 5). The one law,
the range of a value, is imposed where it is read, by `Machine.oracleAnswer`. -/
opaque Config.portAnswer : Nat → Nat → Answer

end Sys2Proof
end

