-- ==== Sys2Proof/Machine/State.lean ====
section
/-! DEFINITION. The state of the machine, as plain data, the reasons a step can stop, and the state after reset. -/

namespace Sys2Proof.Machine

/-- The memory tape (10_state.md R17): `LEN` cells, addresses `0` to `LEN - 1`. `cells` lists (address, value) pairs in one
canonical form, `Memory.wf`; an unlisted address below `len` holds `Memory.unlisted`. The pairs carry whole Cells, since
"a model ... must not model bytes" (20_memory.md R34; log 4). -/
structure Memory where
  len : Nat
  cells : List (Nat × Int)
  deriving DecidableEq, Repr

/-- What an address below `LEN` that the list leaves out holds. DESIGN CHOICE of representation (log 4): it gives no cell a
value, since `Memory.ofImage` lists every cell of the image that differs from it. -/
def Memory.unlisted : Int := 0

/-- The canonical form: addresses strictly rising, all below `LEN`, no entry equal to `Memory.unlisted`. -/
abbrev Memory.wf (m : Memory) : Prop :=
  m.cells.Pairwise (fun a b => a.1 < b.1) ∧ ∀ p ∈ m.cells, p.1 < m.len ∧ p.2 ≠ Memory.unlisted

/-- The whole architectural state (10_state.md section 1, R22), with the parameter `CELLW` of the run (00_scope.md R5). -/
structure State where
  /-- The width parameter of the run; no step changes it (log 1). -/
  cfg : Config
  /-- The tape `M` with its fixed length `LEN` (R17). -/
  mem : Memory
  /-- The instruction pointer, any Cell (R11). -/
  ip : Int
  /-- The run status (R14). -/
  status : Status
  /-- `fault_kind`: empty until a fault (R15). -/
  faultKind : Option FaultKind
  /-- `fault_ip`: empty until a fault (R15). -/
  faultIp : Option Int
  /-- The output stream `OUT`, oldest first (R20). -/
  out : List Int
  /-- The input source `IN` (R19): the answers it has still to give, and the place of an oracle in its stream (log 5). -/
  input : InputSource
  deriving DecidableEq, Repr

/-- The model's own stops. A fault of the HARDWARE is none of these: taking it is a next state (60_exceptions.md R125). -/
inductive Fault where
  /-- Raised by `step` alone, when the core is `Halted`: "in either state the core performs no step" (10_state.md R14).
  Safe: the model stops where the hardware does nothing (log 6). -/
  | noStepWhileHalted
  /-- Raised by `step` alone, when the core is `Faulted`, likewise (10_state.md R14, 60_exceptions.md R127). Safe (log 6). -/
  | noStepWhileFaulted
  deriving DecidableEq, Repr

/-- Why an instruction has no meaning. No meaning of this model refuses. -/
inductive Refusal where
  /-- Raised by `exec` alone, for an instruction not modelled yet; no arm answers it now. Safe. -/
  | notModelled (mnemonic : String)
  deriving DecidableEq, Repr

/-- The state right after reset (10_state.md R22) for the arguments the host gives no program with: the default width, the
empty image (`LEN = 0`, allowed by 70_reset_and_hazards.md R152) and the input source that holds no value (42_io.md R95).
The reset for every other choice of the host's arguments is `resetWith`. DESIGN CHOICE for the three arguments (log 1, 2). -/
def State.reset : State :=
  { cfg := Config.default
    mem := { len := 0, cells := [] }
    ip := 0
    status := .running
    faultKind := none
    faultIp := none
    out := []
    input := { answers := [], thereafter := .always (.fail .exhaustedInput) } }

end Sys2Proof.Machine
end

