-- ==== Sys2Proof/Machine/Ops.lean ====
section
/-! DEFINITION. The named operations over the state: tape access, fault entry, the writes of `ip`, `status`, `OUT`, the
request to the input port, reset with the host's arguments, and the placing of an instruction for `State.withFetchWord`. -/

namespace Sys2Proof.Machine

/-- What a step answers. -/
abbrev Result := Host.Outcome State Fault Refusal

/-! ## The tape -/

/-- The value listed for address `a`. -/
def Memory.lookup (cells : List (Nat × Int)) (a : Nat) : Int :=
  match cells with
  | [] => Memory.unlisted
  | (b, w) :: rest => if a = b then w else Memory.lookup rest a

/-- The list with `v` at address `a`, canonical if it was: the unlisted value is not listed. -/
def Memory.store (cells : List (Nat × Int)) (a : Nat) (v : Int) : List (Nat × Int) :=
  match cells with
  | [] => if v = Memory.unlisted then [] else [(a, v)]
  | (b, w) :: rest =>
    if a < b then (if v = Memory.unlisted then (b, w) :: rest else (a, v) :: (b, w) :: rest)
    else if a = b then (if v = Memory.unlisted then rest else (a, v) :: rest)
    else (b, w) :: Memory.store rest a v

/-- The cell `M[a]` (00_scope.md R7); it means something for `a < LEN` only. -/
def Memory.get (m : Memory) (a : Nat) : Int := Memory.lookup m.cells a

/-- `M[a] <- v`: exactly one cell changes (20_memory.md R33). -/
def Memory.set (m : Memory) (a : Nat) (v : Int) : Memory := { m with cells := Memory.store m.cells a v }

/-- The entries of an image whose first cell has address `a`. -/
def Memory.entries (a : Nat) (image : List Int) : List (Nat × Int) :=
  match image with
  | [] => []
  | v :: rest => if v = Memory.unlisted then Memory.entries (a + 1) rest else (a, v) :: Memory.entries (a + 1) rest

/-- The tape that holds an image: `M[i] = IMAGE[i]`, `LEN` its length (10_state.md R22). -/
def Memory.ofImage (image : List Int) : Memory :=
  { len := image.length, cells := Memory.entries 0 image }

/-- An address is valid exactly when `0 <= addr < LEN` (20_memory.md R31). -/
abbrev State.Valid (s : State) (addr : Int) : Prop := 0 ≤ addr ∧ addr < (s.mem.len : Int)

/-- `MemRead(addr, 1)` (20_memory.md R32). -/
def memRead (s : State) (addr : Int) : Except FaultKind Int :=
  if s.Valid addr then .ok (s.mem.get addr.toNat) else .error .addressOutOfBounds

/-- `MemWrite(addr, 1, v)` (20_memory.md R33): a write that faults changes nothing. -/
def memWrite (s : State) (addr : Int) (v : Int) : Except FaultKind State :=
  if s.Valid addr then .ok { s with mem := s.mem.set addr.toNat v } else .error .addressOutOfBounds

/-- The fetch, an ordinary bounds-checked read at `ip` (40_execution_loop.md R71). -/
def fetch (s : State) : Except FaultKind Int := memRead s s.ip

/-! ## Faults -/

/-- Fault entry, `raise K` (60_exceptions.md R125): the kind and `ip` are recorded, the status becomes `Faulted`, `ip` and
everything else stay. No handler is entered, and there is no return from a fault (R127), so no operation beside this one. -/
def raise (s : State) (k : FaultKind) : State :=
  { s with faultKind := some k, faultIp := some s.ip, status := .faulted }

/-- Go on with the value of a part of the step that may raise; where it raises, take the fault in `s`, and nothing after it
is performed (00_scope.md R7, 60_exceptions.md R124). -/
def attempt {α : Type} (s : State) (x : Except FaultKind α) (go : α → Result) : Result :=
  match x with
  | .ok a => go a
  | .error k => .next (raise s k)

/-- The range check of an exact sum or product (41_arithmetic.md R89). -/
def checkRange (c : Config) (r : Int) : Except FaultKind Int :=
  if c.InRange r then .ok r else .error .arithmeticOverflow

/-! ## `ip`, `status` and the ports -/

/-- `ip <- ip + n`, exact, with no wrap-around (10_state.md R12). -/
def advance (s : State) (n : Nat) : State := { s with ip := s.ip + (n : Int) }

/-- `ip <- target`, with no check of the target (43_branch.md R102; log 14). -/
def jumpTo (s : State) (target : Int) : State := { s with ip := target }

/-- `status <- Halted` (45_halt.md R110). -/
def enterHalted (s : State) : State := { s with status := .halted }

/-- `OutSend(c)`: `OUT <- OUT ++ [c]`; the port always accepts (42_io.md R96; log 10). -/
def outSend (s : State) (c : Int) : State := { s with out := s.out ++ [c] }

/-- The Cell nearest to `v`: `v` itself where `v` is a Cell, so that every Cell is one an oracle can give. -/
def clampCell (c : Config) (v : Int) : Int := max c.cmin (min v c.cmax)

/-- The answer of an oracle to one request: free, but "a `value` carries a Cell in range" (42_io.md R95; log 5). -/
def oracleAnswer (c : Config) (stream request : Nat) : Answer :=
  match Config.portAnswer stream request with
  | .value v => .value (clampCell c v)
  | .fail k => .fail k
  | .wait => .wait

/-- The answer given to the next request once the listed answers are used up. -/
def Thereafter.next (c : Config) (z : Thereafter) : Answer :=
  match z with
  | .always a => a
  | .oracle stream request => oracleAnswer c stream request

/-- What follows it: an oracle goes on to its next request. -/
def Thereafter.rest (z : Thereafter) : Thereafter :=
  match z with
  | .always a => .always a
  | .oracle stream request => .oracle stream (request + 1)

/-- The answer the source gives to the next request (42_io.md R95). -/
def InputSource.next (c : Config) (q : InputSource) : Answer :=
  match q.answers with
  | [] => Thereafter.next c q.thereafter
  | a :: _ => a

/-- The source after that request: each value is given exactly once (42_io.md R95). -/
def InputSource.rest (q : InputSource) : InputSource :=
  match q.answers with
  | [] => { q with thereafter := Thereafter.rest q.thereafter }
  | _ :: as => { q with answers := as }

/-- `InRecv()` (42_io.md R95): the port's answer, and the state with the source past that answer. -/
def inRecv (s : State) : Answer × State :=
  (InputSource.next s.cfg s.input, { s with input := InputSource.rest s.input })

/-- The fault that a failure of the input port raises (42_io.md R95, 60_exceptions.md R121). -/
def failureKind (k : InputFailure) : FaultKind :=
  match k with
  | .exhaustedInput => .exhaustedInput
  | .parseError => .parseError
  | .ioError => .ioError

/-! ## Reset and load -/

/-- `reset(IMAGE, IN)` (10_state.md R22, 70_reset_and_hazards.md R150), at width `c`; nothing of an earlier run is an
argument, so nothing is carried over (R150, 20_memory.md R44). -/
def resetWith (c : Config) (image : List Int) (input : InputSource) : State :=
  { cfg := c
    mem := Memory.ofImage image
    ip := 0
    status := .running
    faultKind := none
    faultIp := none
    out := []
    input := input }

/-- Where an instruction can be placed for the next fetch: at `ip`, where four cells from `ip` fit a tape of at most
`CMAX - 3` cells, else at 0. DESIGN CHOICE (log 3). -/
def placeAt (s : State) : Int := if 0 ≤ s.ip ∧ s.ip + 7 ≤ s.cfg.cmax then s.ip else 0

/-- The list with the given cells at `a`, `a + 1`, and so on. -/
def Memory.storeAll (cells : List (Nat × Int)) (a : Nat) (vs : List Int) : List (Nat × Int) :=
  match vs with
  | [] => cells
  | v :: rest => Memory.storeAll (Memory.store cells a v) (a + 1) rest

/-- The state with the cells stored where the next step fetches, the tape long enough for them, and the core running: it
stands for a load from outside the machine (log 3). -/
def placeCells (s : State) (vs : List Int) : State :=
  { s with
    mem := { len := max s.mem.len ((placeAt s).toNat + vs.length)
             cells := Memory.storeAll s.mem.cells (placeAt s).toNat vs }
    ip := placeAt s
    status := .running
    faultKind := none
    faultIp := none }

end Sys2Proof.Machine
end

