-- ==== Sys2Proof/Machine/Operands.lean ====
section
/-! DEFINITION. The operand addressing resolver: the two source modes and the one destination form
(40_execution_loop.md R73 to R76). -/

namespace Sys2Proof.Machine

/-- The address of parameter `k + 1`: `ip + 1 + k`, exact (40_execution_loop.md R73). -/
def paramAddr (s : State) (k : Nat) : Int := s.ip + 1 + (k : Int)

/-- `Src(k)`: the value of source parameter `k + 1` (40_execution_loop.md R74); one level of indirection in Position mode. -/
def src (s : State) (k : Nat) (m : Mode) : Except FaultKind Int :=
  match memRead s (paramAddr s k) with
  | .error e => .error e
  | .ok p =>
    match m with
    | .immediate => .ok p
    | .position => memRead s p

/-- `Dst(k)`: the destination address given by parameter `k + 1`, whatever its mode digit; it is not checked here
(40_execution_loop.md R75, 30_encoding.md R59). -/
def dst (s : State) (k : Nat) : Except FaultKind Int := memRead s (paramAddr s k)

/-- The source parameters of an operation, by index, with their modes (30_encoding.md R53). -/
def sourceParams (i : Instr) : List (Nat × Mode) :=
  match i with
  | .add m1 m2 _ => [(0, m1), (1, m2)]
  | .multiply m1 m2 _ => [(0, m1), (1, m2)]
  | .read _ => []
  | .write m1 => [(0, m1)]
  | .jumpIfTrue m1 m2 => [(0, m1), (1, m2)]
  | .jumpIfFalse m1 m2 => [(0, m1), (1, m2)]
  | .lessThan m1 m2 _ => [(0, m1), (1, m2)]
  | .equals m1 m2 _ => [(0, m1), (1, m2)]
  | .halt => []

/-- The index of the destination parameter, "the final parameter of Add/Multiply/LessThan/Equals/Read" (30_encoding.md R53,
40_execution_loop.md R75). -/
def destParam (i : Instr) : Option Nat :=
  match i with
  | .add _ _ _ => some 2
  | .multiply _ _ _ => some 2
  | .read _ => some 0
  | .write _ => none
  | .jumpIfTrue _ _ => none
  | .jumpIfFalse _ _ => none
  | .lessThan _ _ _ => some 2
  | .equals _ _ _ => some 2
  | .halt => none

end Sys2Proof.Machine
end

