-- ==== Sys2Proof/Machine/Arithmetic.lean ====
section
/-! DEFINITION. Add and Multiply (41_arithmetic.md). -/

namespace Sys2Proof.Machine

/-- The shape Add and Multiply share: both sources, the destination address, the exact result, the range check, the store,
`ip + 4`, in that order (41_arithmetic.md R89, R90, R91; 40_execution_loop.md R78). -/
def arithmetic (op : Int → Int → Int) (m1 m2 : Mode) (s : State) : Result :=
  attempt s (src s 0 m1) fun lhs =>
  attempt s (src s 1 m2) fun rhs =>
  attempt s (dst s 2) fun dest =>
  attempt s (checkRange s.cfg (op lhs rhs)) fun r =>
  attempt s (memWrite s dest r) fun t =>
  .next (advance t 4)

/-- Add (41_arithmetic.md R90). -/
def execAdd (m1 m2 _m3 : Mode) (s : State) : Result := arithmetic (fun lhs rhs => lhs + rhs) m1 m2 s

/-- Multiply (41_arithmetic.md R91). -/
def execMultiply (m1 m2 _m3 : Mode) (s : State) : Result := arithmetic (fun lhs rhs => lhs * rhs) m1 m2 s

end Sys2Proof.Machine
end

