-- ==== Sys2Proof/Machine/Flags.lean ====
section
/-! DEFINITION. Truth values. The hardware has no flags (10_state.md R13): a comparison stores 1 or 0 in a cell, and a branch
tests an operand against zero (44_compare.md R107). -/

namespace Sys2Proof.Machine

/-- The Cell a comparison stores: 1 when it holds, 0 when not (44_compare.md R105, R106). -/
def truthCell (b : Bool) : Int := if b then 1 else 0

/-- The branch condition: every nonzero value, negative included, is true (43_branch.md R100, R101). -/
def truthOf (v : Int) : Bool := v != 0

end Sys2Proof.Machine
end

