-- ==== Sys2Proof/Machine/Branch.lean ====
section
/-! DEFINITION. JumpIfTrue and JumpIfFalse (43_branch.md). -/

namespace Sys2Proof.Machine

/-- The shape both branches share: both operands are resolved before the condition is looked at (43_branch.md R103); a taken
branch sets `ip` to the target, unchecked (R102), and one not taken advances by 3. -/
def branch (taken : Int → Bool) (m1 m2 : Mode) (s : State) : Result :=
  attempt s (src s 0 m1) fun lhs =>
  attempt s (src s 1 m2) fun rhs =>
  .next (if taken lhs then jumpTo s rhs else advance s 3)

/-- JumpIfTrue (43_branch.md R100). -/
def execJumpIfTrue (m1 m2 : Mode) (s : State) : Result := branch truthOf m1 m2 s

/-- JumpIfFalse (43_branch.md R101). -/
def execJumpIfFalse (m1 m2 : Mode) (s : State) : Result := branch (fun lhs => !truthOf lhs) m1 m2 s

end Sys2Proof.Machine
end

