-- ==== Sys2Proof/Machine/Compare.lean ====
section
/-! DEFINITION. LessThan and Equals (44_compare.md). -/

namespace Sys2Proof.Machine

/-- The shape both comparisons share: both sources, the destination address, the store of 1 or 0 (always, not only when the
comparison holds), `ip + 4` (44_compare.md R105, R106). -/
def comparison (holds : Int → Int → Bool) (m1 m2 : Mode) (s : State) : Result :=
  attempt s (src s 0 m1) fun lhs =>
  attempt s (src s 1 m2) fun rhs =>
  attempt s (dst s 2) fun dest =>
  attempt s (memWrite s dest (truthCell (holds lhs rhs))) fun t =>
  .next (advance t 4)

/-- LessThan: a strict comparison of signed integers (44_compare.md R105). -/
def execLessThan (m1 m2 _m3 : Mode) (s : State) : Result := comparison (fun lhs rhs => decide (lhs < rhs)) m1 m2 s

/-- Equals: equality of the two integers (44_compare.md R106). -/
def execEquals (m1 m2 _m3 : Mode) (s : State) : Result := comparison (fun lhs rhs => decide (lhs = rhs)) m1 m2 s

end Sys2Proof.Machine
end

