-- ==== Sys2Proof/Machine/Halt.lean ====
section
/-! DEFINITION. Halt (45_halt.md). -/

namespace Sys2Proof.Machine

/-- Halt: `status <- Halted` and nothing else; `ip` stays at the Halt (45_halt.md R110). -/
def execHalt (s : State) : Result := .next (enterHalted s)

end Sys2Proof.Machine
end

