-- ==== Sys2Proof/Machine/InputOutput.lean ====
section
/-! DEFINITION. Read and Write (42_io.md). -/

namespace Sys2Proof.Machine

/-- Read (42_io.md R97): the destination address, then the request to the port, then the store. `wait` holds the step: no
state changes but the port's own; a failure is a fault; a value is consumed before the destination is checked (log 13). -/
def execRead (_m1 : Mode) (s : State) : Result :=
  attempt s (dst s 0) fun dest =>
    match inRecv s with
    | (.wait, t) => .next t
    | (.fail k, t) => .next (raise t (failureKind k))
    | (.value c, t) => attempt t (memWrite t dest c) fun u => .next (advance u 2)

/-- Write (42_io.md R98): the resolved operand is sent; no cell of the tape is written. -/
def execWrite (m1 : Mode) (s : State) : Result :=
  attempt s (src s 0 m1) fun val => .next (advance (outSend s val) 2)

end Sys2Proof.Machine
end

