-- ==== Sys2Proof/Machine/Step.lean ====
section
/-! DEFINITION. One step: fetch, decode, execute (40_execution_loop.md R70, R79). -/

namespace Sys2Proof.Machine

/-- `Step()` (40_execution_loop.md R79). A step is enabled only when the status is `Running` (R70); in a terminal state the
core performs none, and the model stops by name (10_state.md R14; log 6). -/
def step (s : State) : Host.Outcome State Fault Refusal :=
  match s.status with
  | .running => attempt s (fetch s) fun v => attempt s (decode v) fun i => exec i s
  | .halted => .fault .noStepWhileHalted
  | .faulted => .fault .noStepWhileFaulted

/-- `s` with the instruction of the host's number stored where the next step fetches (log 3). -/
def State.withFetchWord (s : State) (nbits w : Nat) : State := placeCells s (tableCells nbits w)

end Sys2Proof.Machine
end

