-- ==== Sys2Proof/Machine/Run.lean ====
section
/-! DEFINITION. A run and its end (40_execution_loop.md R80, R83). -/

namespace Sys2Proof.Machine

/-- How a run stands after some fuel. -/
inductive RunEnd where
  /-- The first state with `status` `Halted` or `Faulted` (R80). -/
  | ended (s : State)
  /-- The fuel is used up: "not finished", never a halt and never a fault (R83). -/
  | notFinished (s : State)
  deriving DecidableEq, Repr

/-- The run from `s`, at most `fuel` steps of it, a held Read counting as one (R80, R83). A step that the model stops on is
one asked of a terminal state, where the run has ended. -/
def runFor (fuel : Nat) (s : State) : RunEnd :=
  match fuel with
  | 0 => if s.status = .running then .notFinished s else .ended s
  | n + 1 =>
    match step s with
    | .next t => runFor n t
    | .fault _ => .ended s
    | .refused _ => .notFinished s

end Sys2Proof.Machine
end

