-- ==== Sys2Proof/WellFormed.lean ====
section
/-! DEFINITION. The checks on what a host and a programmer hand to the hardware: parameters, image, input source, assembly
lines, canonical instructions. `Instr` itself needs no check: each of its terms is an instruction the encoding admits. -/

namespace Sys2Proof

/-- `CELLW` "must be at least 16" (00_scope.md R5). -/
abbrev Config.wf (c : Config) : Prop := 16 ≤ c.cellw

/-- `0 <= LEN <= CMAX - 3` (00_scope.md R5, 70_reset_and_hazards.md R152). -/
abbrev lengthWf (c : Config) (len : Nat) : Prop := (len : Int) ≤ c.cmax - 3

/-- An image the host may load: its length is allowed and every element is a Cell (70_reset_and_hazards.md R152). -/
abbrev imageWf (c : Config) (image : List Int) : Prop :=
  lengthWf c image.length ∧ ∀ v ∈ image, c.InRange v

/-- The one law of the oracle: "a `value` carries a Cell in range" (42_io.md R95). -/
def Answer.wf (c : Config) (a : Answer) : Bool :=
  match a with
  | .value v => decide (c.InRange v)
  | .fail _ => true
  | .wait => true

/-- What comes after the listed answers obeys the law; an oracle's answers do by `Machine.oracleAnswer`. -/
def Thereafter.wf (c : Config) (z : Thereafter) : Bool :=
  match z with
  | .always a => a.wf c
  | .oracle _ _ => true

/-- Every answer of the source obeys the oracle's law (42_io.md R95). -/
abbrev InputSource.wf (c : Config) (q : InputSource) : Prop :=
  (∀ a ∈ q.answers, a.wf c = true) ∧ q.thereafter.wf c = true

/-- The destination's mode digit is 0, as in a canonical instruction cell (30_encoding.md R63). -/
def Instr.canonical (i : Instr) : Bool :=
  match i with
  | .add _ _ m3 | .multiply _ _ m3 | .lessThan _ _ m3 | .equals _ _ m3 => m3 == .position
  | .read m1 => m1 == .position
  | .write _ | .jumpIfTrue _ _ | .jumpIfFalse _ _ | .halt => true

/-- The parameter of an operand is a Cell. -/
def Operand.wf (c : Config) (o : Operand) : Bool :=
  match o with
  | .position n | .immediate n => decide (c.InRange n)

/-- Every parameter of the line is a Cell (30_encoding.md R61, R64). -/
def AsmLine.wf (c : Config) (l : AsmLine) : Bool :=
  match l with
  | .add x y d | .multiply x y d | .lessThan x y d | .equals x y d => x.wf c && y.wf c && decide (c.InRange d)
  | .read d => decide (c.InRange d)
  | .write x => x.wf c
  | .jumpIfTrue x y | .jumpIfFalse x y => x.wf c && y.wf c
  | .halt => true
  | .data n => decide (c.InRange n)

end Sys2Proof
end

