-- ==== Sys2Proof/Machine/Transactions.lean ====
section
/-! DEFINITION. The host's transactions (70_reset_and_hazards.md R155, R157) and the codes of the register view
(10_state.md R14, 60_exceptions.md R121). The host has no transaction that writes a run in progress (R156; log 11). -/

namespace Sys2Proof.Machine

/-- `reset(IMAGE, IN)`, allowed at any time (R150, R155); the host is refused a width, an image or a source that the spec
forbids (00_scope.md R5, R152, 42_io.md R95). -/
def hostReset (c : Config) (image : List Int) (input : InputSource) : Option State :=
  if c.wf ∧ imageWf c image ∧ input.wf c then some (resetWith c image input) else none

/-- Read `status`, at any time (R155). -/
def readStatus (s : State) : Status := s.status

/-- Read `fault_kind` and `fault_ip`, only when `Faulted` (R155, R157). -/
def readFault (s : State) : Option (FaultKind × Int) :=
  match s.status, s.faultKind, s.faultIp with
  | .faulted, some k, some a => some (k, a)
  | _, _, _ => none

/-- Read `M[a]`, only when `Halted`: the tape of a faulted run is discarded (R157, 60_exceptions.md R126; log 12). -/
def readTape (s : State) (a : Int) : Option Int :=
  if s.status = .halted ∧ s.Valid a then some (s.mem.get a.toNat) else none

/-- Read `ip`, only when `Halted` (R155, R157). -/
def readIp (s : State) : Option Int := if s.status = .halted then some s.ip else none

/-- Read `OUT`, at any time (R155). -/
def readOut (s : State) : List Int := s.out

/-- The whole tape `M[0 .. LEN-1]` as a list, only when `Halted` (R157). -/
def readWholeTape (s : State) : Option (List Int) :=
  if s.status = .halted then some ((List.range s.mem.len).map s.mem.get) else none

/-- The code of a status (10_state.md R14). -/
def statusCode (st : Status) : Nat :=
  match st with
  | .running => 0
  | .halted => 1
  | .faulted => 2

/-- The code of a fault kind (60_exceptions.md R121). -/
def faultCode (k : FaultKind) : Nat :=
  match k with
  | .addressOutOfBounds => 1
  | .unknownOpcode => 2
  | .invalidModeDigit => 3
  | .exhaustedInput => 4
  | .parseError => 5
  | .ioError => 6
  | .arithmeticOverflow => 7

/-- The code of `NotFound`, the harness's result, never a value of `fault_kind` (60_exceptions.md R121). -/
def notFoundCode : Nat := 8

/-- What a register view shows for the fault kind: 0 while `status != Faulted` (60_exceptions.md R121). -/
def faultCodeView (s : State) : Nat :=
  match readFault s with
  | some (k, _) => faultCode k
  | none => 0

end Sys2Proof.Machine
end

