-- ==== Sys2Proof/Machine/Harness.lean ====
section
/-! DEFINITION. The Parameter Search Harness as a host procedure over the transactions of R155 (70_reset_and_hazards.md R160,
R161). It is outside the core (00_scope.md R4). -/

namespace Sys2Proof.Machine

/-- `HARNESS_ON_FAULT`, the open parameter of R161. -/
inductive HarnessPolicy where
  /-- Every faulted candidate is a non-match and the sweep continues. -/
  | skip
  /-- The first faulted candidate ends the sweep with that fault. -/
  | abort
  deriving DecidableEq, Repr

/-- What a sweep answers (R160, R161). -/
inductive HarnessResult where
  /-- The first matching pair in row-major order. -/
  | found (a b : Nat)
  /-- The space is exhausted without a match. -/
  | notFound
  /-- Candidate `(a, b)` is the first that faulted under `abort`, which "ends the sweep with that fault" (R161). Which data
  that reports is the model's choice, since R161 does not say: the pair, the kind and `fault_ip`. DESIGN CHOICE (log 17). -/
  | aborted (a b : Nat) (k : FaultKind) (faultIp : Int)
  /-- The host refuses: a seed address outside the listing, or an image or source no reset takes. -/
  | refusedByHost
  /-- A candidate did not end within the fuel, which the hardware would run on (R83; log 17). -/
  | notFinished (a b : Nat)
  deriving DecidableEq, Repr

/-- The candidate pairs, `a` outer and `b` inner, both from 0 to 99 (R160). -/
def candidates : List (Nat × Nat) :=
  (List.range 100).flatMap fun a => (List.range 100).map fun b => (a, b)

/-- The seeded image: `I[s1] <- a ; I[s2] <- b` on a copy of the listing (R160). -/
def seedImage (listing : List Int) (s1 s2 a b : Nat) : List Int :=
  (listing.set s1 (a : Int)).set s2 (b : Int)

/-- The arguments of a sweep: width, listing, seed addresses ("conventionally cells 1 and 2"), target value, policy, the
input source of each candidate run, and the fuel of each. -/
structure HarnessArgs where
  cfg : Config
  listing : List Int
  s1 : Nat
  s2 : Nat
  target : Int
  policy : HarnessPolicy
  input : InputSource
  fuel : Nat
  deriving DecidableEq, Repr

/-- One candidate run to its end, from a reset of its own (R160, 20_memory.md R44). -/
def candidateRun (h : HarnessArgs) (a b : Nat) : Option RunEnd :=
  (hostReset h.cfg (seedImage h.listing h.s1 h.s2 a b) h.input).map (runFor h.fuel)

/-- The sweep over the given candidates, in their order (R160, R161). What an aborted sweep reports beside the kind is the
model's choice (log 17). -/
def sweep (h : HarnessArgs) (cs : List (Nat × Nat)) : HarnessResult :=
  match cs with
  | [] => .notFound
  | (a, b) :: rest =>
    match candidateRun h a b with
    | none => .refusedByHost
    | some (.notFinished _) => .notFinished a b
    | some (.ended e) =>
      if readTape e 0 = some h.target then .found a b
      else
        match h.policy, readFault e with
        | .abort, some (k, faultIp) => .aborted a b k faultIp
        | _, _ => sweep h rest

/-- `Harness(L, s1, s2, t)` (R160): the seed addresses are bounds-checked against the listing by the host, then the whole
space is swept. -/
def harness (h : HarnessArgs) : HarnessResult :=
  if h.s1 < h.listing.length ∧ h.s2 < h.listing.length then sweep h candidates else .refusedByHost

/-- The number a success is also reported as, `100*a + b` (R160). -/
def reportedPair (a b : Nat) : Nat := 100 * a + b

end Sys2Proof.Machine
end

