-- ==== Sys2Proof/Machine/Loader.lean ====
section
/-! DEFINITION. The contracts of the external collaborators that hand the core its cells: the listing loader
(70_reset_and_hazards.md R153) and the default backing of the input port (42_io.md R99). Both are outside the core
(00_scope.md R4); `step` calls neither. -/

namespace Sys2Proof.Machine

/-- Why a load fails, before any run (70_reset_and_hazards.md R153, 60_exceptions.md R121). -/
inductive LoadError where
  | parseError
  | ioError
  deriving DecidableEq, Repr

/-- The value of a decimal digit character. -/
def digitValue (ch : Char) : Option Nat :=
  if 48 ≤ ch.toNat ∧ ch.toNat ≤ 57 then some (ch.toNat - 48) else none

/-- The value of a row of digits read after `acc`. -/
def parseDigits (acc : Nat) (cs : List Char) : Option Nat :=
  match cs with
  | [] => some acc
  | ch :: rest =>
    match digitValue ch with
    | some d => parseDigits (10 * acc + d) rest
    | none => none

/-- A natural number: at least one digit, nothing else. -/
def parseNat (cs : List Char) : Option Nat :=
  match cs with
  | [] => none
  | _ :: _ => parseDigits 0 cs

/-- A token: an optional leading `-`, then digits (70_reset_and_hazards.md R153). -/
def parseInteger (cs : List Char) : Option Int :=
  match cs with
  | [] => none
  | ch :: rest =>
    if ch = '-' then (parseNat rest).map (fun n => -(n : Int)) else (parseNat cs).map (fun n => (n : Int))

/-- A token whose value is a Cell; "a token whose value is outside CMIN .. CMAX is a ParseError" (R153). -/
def parseCell (c : Config) (cs : List Char) : Except LoadError Int :=
  match parseInteger cs with
  | some v => if c.InRange v then .ok v else .error .parseError
  | none => .error .parseError

/-- The comma-separated tokens of a line. -/
def splitTokens (cs : List Char) : List (List Char) :=
  match cs with
  | [] => [[]]
  | ch :: rest =>
    if ch = ',' then [] :: splitTokens rest
    else
      match splitTokens rest with
      | [] => [[ch]]
      | tok :: toks => (ch :: tok) :: toks

/-- "A trailing newline is tolerated and stripped" (R153). -/
def stripNewline (cs : List Char) : List Char :=
  if cs.getLast? = some '\n' then cs.dropLast else cs

/-- The cells of the tokens, in order; one malformed token fails the whole load (R153). -/
def parseTokens (c : Config) (toks : List (List Char)) : Except LoadError (List Int) :=
  match toks with
  | [] => .ok []
  | tok :: rest =>
    match parseCell c tok with
    | .error e => .error e
    | .ok v =>
      match parseTokens c rest with
      | .error e => .error e
      | .ok vs => .ok (v :: vs)

/-- The image of a listing: token `i` is `IMAGE[i]` (R153). -/
def loadListing (c : Config) (text : List Char) : Except LoadError (List Int) :=
  parseTokens c (splitTokens (stripNewline text))

/-- The load of a listing file; `none` is a file that could not be read, "an IOError, equally before any run" (R153). -/
def loadFile (c : Config) (file : Option (List Char)) : Except LoadError (List Int) :=
  match file with
  | none => .error .ioError
  | some text => loadListing c text

/-- What the default input backing meets when one line is asked of it (42_io.md R99). -/
inductive BackingEvent where
  /-- A line of text is there. -/
  | line (text : List Char)
  /-- No line: end of input. -/
  | endOfInput
  /-- The stream failed. -/
  | streamFailure
  /-- A line not yet typed. -/
  | notYet
  deriving DecidableEq, Repr

/-- The port's answer for each of them (42_io.md R99). A line is read like a token, its newline stripped (log 17). -/
def backingAnswer (c : Config) (e : BackingEvent) : Answer :=
  match e with
  | .line text =>
    match parseCell c (stripNewline text) with
    | .ok v => .value v
    | .error _ => .fail .parseError
  | .endOfInput => .fail .exhaustedInput
  | .streamFailure => .fail .ioError
  | .notYet => .wait

end Sys2Proof.Machine
end

