-- ==== Sys2Proof/Safety.lean ====
section
/-! DEFINITION. The terms claims are stated in: cells, operands that resolve, and the invariant of the state. -/

namespace Sys2Proof.Machine

/-- `M[addr]` (00_scope.md R7), for a valid `addr`. -/
def State.cell (s : State) (addr : Int) : Int := s.mem.get addr.toNat

/-- The parameter cell `k + 1` of the instruction at `ip` is on the tape (40_execution_loop.md R76). -/
abbrev State.ParamOk (s : State) (k : Nat) : Prop := s.Valid (s.ip + 1 + (k : Int))

/-- The value of that parameter cell. -/
def State.param (s : State) (k : Nat) : Int := s.cell (s.ip + 1 + (k : Int))

/-- Source parameter `k + 1` resolves in mode `m`: its cell is on the tape and, in Position mode, so is the cell it names
(40_execution_loop.md R74). -/
abbrev State.SrcOk (s : State) (k : Nat) (m : Mode) : Prop :=
  s.ParamOk k ∧ (m = .position → s.Valid (s.param k))

/-- The value it resolves to (40_execution_loop.md R74). -/
def State.operand (s : State) (k : Nat) (m : Mode) : Int :=
  match m with
  | .position => s.cell (s.param k)
  | .immediate => s.param k

/-- The parameter cell `k + 1` is on the tape and names a valid destination (40_execution_loop.md R75). -/
abbrev State.DstOk (s : State) (k : Nat) : Prop := s.ParamOk k ∧ s.Valid (s.param k)

/-- Everything but the tape, `ip` and the ports is the same: parameter, length, status and fault report. -/
abbrev SameControl (s t : State) : Prop :=
  t.cfg = s.cfg ∧ t.mem.len = s.mem.len ∧ t.status = s.status ∧ t.faultKind = s.faultKind ∧ t.faultIp = s.faultIp

/-- Every cell of the tape, and its length, is the same. -/
abbrev SameTape (s t : State) : Prop := t.mem.len = s.mem.len ∧ ∀ a : Int, s.Valid a → t.cell a = s.cell a

/-- Exactly the cell at `d` is written, with `v` (20_memory.md R33). -/
abbrev OneCellWritten (s t : State) (d : Int) (v : Int) : Prop :=
  t.mem.len = s.mem.len ∧ t.cell d = v ∧ ∀ a : Int, s.Valid a → a ≠ d → t.cell a = s.cell a

/-- The fault entry of 60_exceptions.md R125 took `s` to `t` with kind `k`: nothing but the report and the status. -/
abbrev FaultTaken (s t : State) (k : FaultKind) : Prop :=
  t.faultKind = some k ∧ t.faultIp = some s.ip ∧ t.status = .faulted ∧ t.ip = s.ip ∧ t.mem = s.mem ∧ t.out = s.out ∧
    t.input = s.input ∧ t.cfg = s.cfg

/-- The fault report holds values exactly when the run is `Faulted`, and then `fault_ip == ip` (10_state.md R15). -/
abbrev State.ReportOk (s : State) : Prop :=
  (s.status = .faulted ∧ s.faultKind.isSome = true ∧ s.faultIp = some s.ip) ∨
    (s.status ≠ .faulted ∧ s.faultKind = none ∧ s.faultIp = none)

/-- The invariant of the machine: the parameter is allowed (00_scope.md R5), the memory is in canonical form, `LEN` is
allowed (R152), every cell of the tape, `ip`, every value sent and every value the port will give is a Cell (R6, R11, R17,
R20, R95), and the fault report is as R15 says. -/
abbrev State.Inv (s : State) : Prop :=
  s.cfg.wf ∧ s.mem.wf ∧ lengthWf s.cfg s.mem.len ∧ (∀ p ∈ s.mem.cells, s.cfg.InRange p.2) ∧ s.cfg.InRange s.ip ∧
    (∀ v ∈ s.out, s.cfg.InRange v) ∧ s.input.wf s.cfg ∧ s.ReportOk

/-- At width `c` the source `p` answers one request with `a` and is then `q`: its next listed answer, consumed, or the answer
it gives for ever, or the next answer of an oracle, given once (42_io.md R95; log 5). -/
abbrev SourceAnswers (c : Config) (p : InputSource) (a : Answer) (q : InputSource) : Prop :=
  (p.answers = a :: q.answers ∧ q.thereafter = p.thereafter) ∨
    (p.answers = [] ∧ p.thereafter = .always a ∧ q = p) ∨
    (p.answers = [] ∧ ∃ stream request, p.thereafter = .oracle stream request ∧ a = oracleAnswer c stream request ∧
      q = { answers := [], thereafter := .oracle stream (request + 1) })

/-- The condition under which a branch is taken: a nonzero tested value for JumpIfTrue, zero for JumpIfFalse (43_branch.md
R100, R101). No other instruction branches (R104). -/
def BranchTaken (i : Instr) (s : State) : Prop :=
  match i with
  | .jumpIfTrue m1 _ => s.operand 0 m1 ≠ 0
  | .jumpIfFalse m1 _ => s.operand 0 m1 = 0
  | .add _ _ _ | .multiply _ _ _ | .read _ | .write _ | .lessThan _ _ _ | .equals _ _ _ | .halt => False

/-- The absolute address a taken branch goes to (43_branch.md R102). -/
def branchTarget (i : Instr) (s : State) : Int :=
  match i with
  | .jumpIfTrue _ m2 => s.operand 1 m2
  | .jumpIfFalse _ m2 => s.operand 1 m2
  | .add _ _ _ | .multiply _ _ _ | .read _ | .write _ | .lessThan _ _ _ | .equals _ _ _ | .halt => s.ip

end Sys2Proof.Machine
end

