-- ==== Sys2Proof/Certificates/Slice0/Obligations.lean ====
section
/-! DEFINITION. The statements for the provers. Each docstring says which rule of spec/ it formalises, or, where it rests on a
decision the spec marks as its own or on a choice of the model, which. -/

open Sys2Proof Sys2Proof.Machine

/-! ## Reset, the invariant, the run status -/

/-- 10_state.md R22: the whole state after reset, for every image and input source of the host, at every width. -/
def Obligations.ResetEstablishesTheLoadedRun : Prop :=
  ∀ (c : Config) (image : List Int) (q : InputSource),
    (resetWith c image q).mem.len = image.length ∧
    (∀ (i : Nat) (h : i < image.length), (resetWith c image q).cell (i : Int) = image[i]) ∧
    (resetWith c image q).ip = 0 ∧ (resetWith c image q).status = .running ∧
    (resetWith c image q).faultKind = none ∧ (resetWith c image q).faultIp = none ∧
    (resetWith c image q).out = [] ∧ (resetWith c image q).input = q ∧ (resetWith c image q).cfg = c

/-- The invariant holds of `State.reset`, whose width, image and source are the model's choice (log 1, log 2). -/
def Obligations.ResetStateMeetsTheInvariant : Prop := State.reset.Inv

/-- The host's reset takes exactly the widths, images and sources the spec allows (00_scope.md R5, 70_reset_and_hazards.md
R152, 42_io.md R95; decisions D1, D10, D11, D16), and every state it gives meets the invariant. -/
def Obligations.HostResetGivesInvariantStates : Prop :=
  ∀ (c : Config) (image : List Int) (q : InputSource),
    ((∃ s, hostReset c image q = some s) ↔ c.wf ∧ imageWf c image ∧ q.wf c) ∧
    ∀ s, hostReset c image q = some s → s = resetWith c image q ∧ s.Inv

/-- Every step keeps the invariant: canonical memory, every cell, `ip`, output and coming input a Cell of the width, the
length bound, and the fault report as 10_state.md R15 says. It rests on D1, D2 and D10 for the range. -/
def Obligations.EveryStepKeepsTheInvariant : Prop :=
  ∀ s t : State, s.Inv → step s = .next t → t.Inv

/-- Runs under fuel (40_execution_loop.md R80, R83; D23): more fuel never changes how a run ended, a run that ended is in a
terminal state, one that did not is still `Running`, and the invariant holds all along. -/
def Obligations.FuelNeverChangesHowARunEnds : Prop :=
  (∀ (n m : Nat) (s t : State), runFor n s = .ended t → runFor (n + m) s = .ended t ∧ t.status ≠ .running) ∧
  (∀ (n : Nat) (s t : State), runFor n s = .notFinished t → t.status = .running) ∧
  (∀ (n : Nat) (s t : State), s.Inv → runFor n s = .ended t ∨ runFor n s = .notFinished t → t.Inv)

/-- A step is enabled exactly while `Running`, and then it always answers (10_state.md R14, 40_execution_loop.md R70); in a
terminal state the model stops by name, the model's own rendering of "performs no step" (log 6). -/
def Obligations.StepIsEnabledExactlyWhileRunning : Prop :=
  ∀ s : State, ((∃ t, step s = .next t) ↔ s.status = .running) ∧
    (s.status = .halted → step s = .fault .noStepWhileHalted) ∧
    (s.status = .faulted → step s = .fault .noStepWhileFaulted)

/-- The only transitions of the status (10_state.md R14): to `Halted` exactly when the instruction at `ip` is Halt, to
`Faulted` only with a fault report of that `ip`, else it stays `Running`. -/
def Obligations.StatusChangesOnlyByHaltOrFault : Prop :=
  ∀ s t : State, s.ReportOk → step s = .next t →
    (t.status = .halted ↔ s.Valid s.ip ∧ decode (s.cell s.ip) = .ok .halt) ∧
    (t.status = .faulted ↔ t.faultKind.isSome = true) ∧ (t.status = .faulted ↔ t.faultIp = some s.ip) ∧
    (t.status = .running → t.faultKind = none ∧ t.faultIp = none)

/-- `LEN` never changes during a run (10_state.md R17), nor does the width parameter (00_scope.md R5). -/
def Obligations.LengthAndWidthNeverChange : Prop :=
  ∀ s t : State, step s = .next t → t.mem.len = s.mem.len ∧ t.cfg = s.cfg

/-! ## The tape -/

/-- 20_memory.md R32: a read is bounds-checked, and answers the Cell most recently written, or the image's. -/
def Obligations.MemReadAnswersTheLastWrite : Prop :=
  (∀ (s : State) (a : Int), (a < 0 ∨ a ≥ (s.mem.len : Int)) → memRead s a = .error .addressOutOfBounds) ∧
  (∀ (s : State) (a : Int), 0 ≤ a → a < (s.mem.len : Int) → memRead s a = .ok (s.cell a)) ∧
  (∀ (s t : State) (a v : Int), s.mem.wf → memWrite s a v = .ok t → memRead t a = .ok v) ∧
  (∀ (s t : State) (a b v : Int), s.mem.wf → memWrite s a v = .ok t → b ≠ a → memRead t b = memRead s b) ∧
  (∀ (c : Config) (image : List Int) (q : InputSource) (i : Nat) (h : i < image.length),
    memRead (resetWith c image q) (i : Int) = .ok image[i])

/-- 20_memory.md R33: a write is bounds-checked; it changes exactly one cell, and nothing but the tape. -/
def Obligations.MemWriteChangesExactlyOneCell : Prop :=
  ∀ (s : State) (a v : Int), s.mem.wf →
    ((a < 0 ∨ a ≥ (s.mem.len : Int)) → memWrite s a v = .error .addressOutOfBounds) ∧
    (0 ≤ a → a < (s.mem.len : Int) → ∃ t, memWrite s a v = .ok t ∧ OneCellWritten s t a v ∧ t.mem.wf ∧
      SameControl s t ∧ t.ip = s.ip ∧ t.out = s.out ∧ t.input = s.input)

/-- The whole-machine frame of the tape (40_execution_loop.md R78, 20_memory.md R30): whatever a step does, a cell that
changed is the one named by the destination parameter of the instruction at `ip`, and the step completed. -/
def Obligations.TapeChangesOnlyAtTheDestination : Prop :=
  ∀ s t : State, s.mem.wf → step s = .next t → ∀ a : Int, s.Valid a → t.cell a ≠ s.cell a →
    t.status = .running ∧ ∃ i k, decode (s.cell s.ip) = .ok i ∧ destParam i = some k ∧ a = s.param k

/-- A store is seen by the very next fetch (20_memory.md R43): an Add that stores at the cell after itself, which the next
step executes as the instruction the sum decodes to, or faults on. -/
def Obligations.StoreIsSeenByTheNextFetch : Prop :=
  ∀ (s : State) (m1 m2 m3 : Mode), s.mem.wf → s.status = .running → s.Valid s.ip →
    decode (s.cell s.ip) = .ok (.add m1 m2 m3) → s.SrcOk 0 m1 → s.SrcOk 1 m2 → s.DstOk 2 → s.param 2 = s.ip + 4 →
    s.cfg.InRange (s.operand 0 m1 + s.operand 1 m2) →
    ∃ t, step s = .next t ∧ t.ip = s.ip + 4 ∧
      (∀ j, decode (s.operand 0 m1 + s.operand 1 m2) = .ok j → step t = exec j t) ∧
      (∀ k, decode (s.operand 0 m1 + s.operand 1 m2) = .error k → ∃ u, step t = .next u ∧ FaultTaken t u k)

/-! ## The decoder -/

/-- Decoding and encoding agree (30_encoding.md sections 2, 5 and 7): a cell decodes to an instruction exactly when it is the
instruction's own cell with any digits above the last mode digit. It rests on D3 (log 8), D5 (log 9) and D6. -/
def Obligations.DecodeAndEncodeAgree : Prop :=
  ∀ (v : Int) (i : Instr), decode v = .ok i ↔ ∃ h : Nat, v = encode i + (h : Int) * 10 ^ (2 + i.arity)

/-- Instruction cells written out from the encodings of 30_encoding.md (and its vectors in 95_test_vectors.md section 2.1). The
cells with opcodes 4 to 8 rest on D3 (log 8), 100099 on D5 (log 9), 10008 and 20001 on D6 (log 15). -/
def Obligations.DecodesCellsWrittenFromTheSpec : Prop :=
  decode 1 = .ok (.add .position .position .position) ∧
  decode 1002 = .ok (.multiply .position .immediate .position) ∧
  decode 3 = .ok (.read .position) ∧
  decode 104 = .ok (.write .immediate) ∧
  decode 1005 = .ok (.jumpIfTrue .position .immediate) ∧
  decode 106 = .ok (.jumpIfFalse .immediate .position) ∧
  decode 1107 = .ok (.lessThan .immediate .immediate .position) ∧
  decode 10008 = .ok (.equals .position .position .immediate) ∧
  decode 99 = .ok .halt ∧ decode 100099 = .ok .halt ∧
  decode 20001 = .error .invalidModeDigit ∧ decode 0 = .error .unknownOpcode

/-- 30_encoding.md R56: a cell `v >= 0` raises UnknownOpcode exactly when its two low digits are none of the nine opcodes,
that is 0 or 9 to 98; the step takes that fault. -/
def Obligations.UnknownOpcodeFaults : Prop :=
  (∀ v : Int, 0 ≤ v →
    (decode v = .error .unknownOpcode ↔ ¬(v % 100 ∈ [1, 2, 3, 4, 5, 6, 7, 8, 99])) ∧
    (decode v = .error .unknownOpcode ↔ v % 100 = 0 ∨ (9 ≤ v % 100 ∧ v % 100 ≤ 98))) ∧
  (∀ s : State, s.status = .running → s.Valid s.ip → 0 ≤ s.cell s.ip →
    ¬(s.cell s.ip % 100 ∈ [1, 2, 3, 4, 5, 6, 7, 8, 99]) → ∃ t, step s = .next t ∧ FaultTaken s t .unknownOpcode)

/-- Mode digits (30_encoding.md section 5): with a legal opcode, InvalidModeDigit is raised exactly when one of the first
`arity` mode digits is 2 to 9, a destination's included (D6); digits above them do not matter (D5). The opcode numbers 4 to 8
are the spec's decision D3 (log 8). -/
def Obligations.IllegalModeDigitFaults : Prop :=
  ∀ (v : Nat) (opcode arity : Nat),
    (opcode, arity) ∈ [(1, 3), (2, 3), (3, 1), (4, 1), (5, 2), (6, 2), (7, 3), (8, 3), (99, 0)] → v % 100 = opcode →
    ((decode (v : Int) = .error .invalidModeDigit ↔ ∃ k < arity, 2 ≤ v / 10 ^ (2 + k) % 10) ∧
      ((∀ k < arity, v / 10 ^ (2 + k) % 10 ≤ 1) → ∃ i, decode (v : Int) = .ok i ∧ i.arity = arity))

/-- A negative instruction cell is UnknownOpcode and the step takes that fault: the spec's decision D4 (log 15). -/
def Obligations.NegativeCellFaults : Prop :=
  (∀ v : Int, v < 0 → decode v = .error .unknownOpcode) ∧
  (∀ s : State, s.status = .running → s.Valid s.ip → s.cell s.ip < 0 → ∃ t, step s = .next t ∧ FaultTaken s t .unknownOpcode)

/-- The canonical instruction cells are exactly the 28 of the table of 30_encoding.md section 7, an inference the spec marks
as derived. -/
def Obligations.CanonicalCellsAreTheTwentyEight : Prop :=
  ∀ v : Int, (∃ i : Instr, i.canonical = true ∧ encode i = v) ↔
    v ∈ [1, 101, 1001, 1101, 2, 102, 1002, 1102, 3, 4, 104, 5, 105, 1005, 1105, 6, 106, 1006, 1106,
      7, 107, 1007, 1107, 8, 108, 1008, 1108, 99]

/-! ## The step -/

/-- A step runs the decoded instruction (40_execution_loop.md R70, R79). Nothing stands around `exec`: each instruction writes
`ip` itself. -/
def Obligations.StepRunsTheDecodedInstruction : Prop :=
  ∀ (s : State) (i : Instr), s.status = .running → s.Valid s.ip → decode (s.cell s.ip) = .ok i → step s = exec i s

/-- A fetch outside the tape is AddressOutOfBounds (40_execution_loop.md R71), with `fault_ip` that `ip`. -/
def Obligations.FetchOutsideTheTapeFaults : Prop :=
  ∀ s : State, s.status = .running → (s.ip < 0 ∨ (s.mem.len : Int) ≤ s.ip) →
    ∃ t, step s = .next t ∧ FaultTaken s t .addressOutOfBounds

/-- 40_execution_loop.md R72: decode raises UnknownOpcode or InvalidModeDigit only, and before any parameter cell is read, so
the fault is taken whatever the parameters are. -/
def Obligations.DecodeFaultsPrecedeParameters : Prop :=
  ∀ s : State, s.status = .running → s.Valid s.ip →
    (∀ i, decode (s.cell s.ip) = .ok i → step s = exec i s) ∧
    (∀ k, decode (s.cell s.ip) = .error k →
      (k = .unknownOpcode ∨ k = .invalidModeDigit) ∧ ∃ t, step s = .next t ∧ FaultTaken s t k)

/-- 40_execution_loop.md R74: what `Src` answers in every case; and what `Dst` answers (section 2 of the same file). -/
def Obligations.ResolverFollowsTheModes : Prop :=
  ∀ (s : State) (k : Nat),
    (¬s.Valid (s.ip + 1 + (k : Int)) →
      (∀ m, src s k m = .error .addressOutOfBounds) ∧ dst s k = .error .addressOutOfBounds) ∧
    (s.Valid (s.ip + 1 + (k : Int)) →
      src s k .immediate = .ok (s.cell (s.ip + 1 + (k : Int))) ∧
      dst s k = .ok (s.cell (s.ip + 1 + (k : Int))) ∧
      (s.Valid (s.cell (s.ip + 1 + (k : Int))) →
        src s k .position = .ok (s.cell (s.cell (s.ip + 1 + (k : Int))))) ∧
      (¬s.Valid (s.cell (s.ip + 1 + (k : Int))) → src s k .position = .error .addressOutOfBounds))

/-! ## The instructions: what each does where it completes, and its frame -/

/-- Add (41_arithmetic.md section 2): the exact sum goes to the destination cell, `ip + 4`, and nothing else changes. That a
sum outside the range is excluded is D2. -/
def Obligations.AddStoresTheExactSum : Prop :=
  ∀ (s : State) (m1 m2 m3 : Mode), s.mem.wf → s.SrcOk 0 m1 → s.SrcOk 1 m2 → s.DstOk 2 →
    s.cfg.InRange (s.operand 0 m1 + s.operand 1 m2) →
    ∃ t, exec (.add m1 m2 m3) s = .next t ∧ OneCellWritten s t (s.param 2) (s.operand 0 m1 + s.operand 1 m2) ∧
      t.ip = s.ip + 4 ∧ SameControl s t ∧ t.out = s.out ∧ t.input = s.input

/-- Multiply (41_arithmetic.md section 3), likewise with the exact signed product. -/
def Obligations.MultiplyStoresTheExactProduct : Prop :=
  ∀ (s : State) (m1 m2 m3 : Mode), s.mem.wf → s.SrcOk 0 m1 → s.SrcOk 1 m2 → s.DstOk 2 →
    s.cfg.InRange (s.operand 0 m1 * s.operand 1 m2) →
    ∃ t, exec (.multiply m1 m2 m3) s = .next t ∧ OneCellWritten s t (s.param 2) (s.operand 0 m1 * s.operand 1 m2) ∧
      t.ip = s.ip + 4 ∧ SameControl s t ∧ t.out = s.out ∧ t.input = s.input

/-- LessThan (44_compare.md): 1 when `lhs < rhs` as signed integers, else 0, always written; `ip + 4`; nothing else changes. -/
def Obligations.LessThanStoresTheTruthValue : Prop :=
  ∀ (s : State) (m1 m2 m3 : Mode), s.mem.wf → s.SrcOk 0 m1 → s.SrcOk 1 m2 → s.DstOk 2 →
    ∃ t, exec (.lessThan m1 m2 m3) s = .next t ∧
      (s.operand 0 m1 < s.operand 1 m2 → OneCellWritten s t (s.param 2) 1) ∧
      (¬s.operand 0 m1 < s.operand 1 m2 → OneCellWritten s t (s.param 2) 0) ∧
      t.ip = s.ip + 4 ∧ SameControl s t ∧ t.out = s.out ∧ t.input = s.input

/-- Equals (44_compare.md): 1 when the two values are equal, else 0, always written; `ip + 4`; nothing else changes. -/
def Obligations.EqualsStoresTheTruthValue : Prop :=
  ∀ (s : State) (m1 m2 m3 : Mode), s.mem.wf → s.SrcOk 0 m1 → s.SrcOk 1 m2 → s.DstOk 2 →
    ∃ t, exec (.equals m1 m2 m3) s = .next t ∧
      (s.operand 0 m1 = s.operand 1 m2 → OneCellWritten s t (s.param 2) 1) ∧
      (s.operand 0 m1 ≠ s.operand 1 m2 → OneCellWritten s t (s.param 2) 0) ∧
      t.ip = s.ip + 4 ∧ SameControl s t ∧ t.out = s.out ∧ t.input = s.input

/-- Read (42_io.md section 2) where the port gives a value: it is stored at the destination and consumed, `ip + 2`, and
nothing else changes. -/
def Obligations.ReadStoresTheInputValue : Prop :=
  ∀ (s : State) (m1 : Mode) (c : Int) (q : InputSource), s.mem.wf → s.DstOk 0 → SourceAnswers s.cfg s.input (.value c) q →
    ∃ t, exec (.read m1) s = .next t ∧ OneCellWritten s t (s.param 0) c ∧ t.input = q ∧
      t.ip = s.ip + 2 ∧ SameControl s t ∧ t.out = s.out

/-- Read where the port answers `wait` (42_io.md sections 1 and 2; D11): the step is held and nothing changes but the port,
which is the model's own record of the answer given (log 5). -/
def Obligations.ReadIsHeldWhileThePortWaits : Prop :=
  ∀ (s : State) (m1 : Mode) (q : InputSource), s.ParamOk 0 → SourceAnswers s.cfg s.input .wait q →
    ∃ t, exec (.read m1) s = .next t ∧ t.mem = s.mem ∧ t.ip = s.ip ∧ SameControl s t ∧ t.out = s.out ∧ t.input = q

/-- Read where the port fails (42_io.md section 2): the fault is the one the port names, whether or not the destination is
valid (D12). -/
def Obligations.ReadRaisesThePortsFailure : Prop :=
  ∀ (s : State) (m1 : Mode) (q : InputSource), s.ParamOk 0 →
    (SourceAnswers s.cfg s.input (.fail .exhaustedInput) q →
      ∃ t, exec (.read m1) s = .next t ∧ FaultTaken { s with input := q } t .exhaustedInput) ∧
    (SourceAnswers s.cfg s.input (.fail .parseError) q →
      ∃ t, exec (.read m1) s = .next t ∧ FaultTaken { s with input := q } t .parseError) ∧
    (SourceAnswers s.cfg s.input (.fail .ioError) q →
      ∃ t, exec (.read m1) s = .next t ∧ FaultTaken { s with input := q } t .ioError)

/-- Read with a value and an invalid destination (42_io.md section 2, corner case (a); D12, log 13): the value is consumed, and
AddressOutOfBounds is taken with nothing written. -/
def Obligations.ReadWithBadDestinationLosesTheValue : Prop :=
  ∀ (s : State) (m1 : Mode) (c : Int) (q : InputSource), s.ParamOk 0 → ¬s.Valid (s.param 0) →
    SourceAnswers s.cfg s.input (.value c) q →
    ∃ t, exec (.read m1) s = .next t ∧ FaultTaken { s with input := q } t .addressOutOfBounds

/-- Write (42_io.md section 3): the operand is appended to `OUT`, `ip + 2`; no cell is written and nothing else changes. That
it completes in every such state rests on the port always accepting: the spec's decision D13 (log 10). -/
def Obligations.WriteAppendsTheOperand : Prop :=
  ∀ (s : State) (m1 : Mode), s.SrcOk 0 m1 →
    ∃ t, exec (.write m1) s = .next t ∧ t.out = s.out ++ [s.operand 0 m1] ∧ t.ip = s.ip + 2 ∧
      SameTape s t ∧ t.mem = s.mem ∧ SameControl s t ∧ t.input = s.input

/-- JumpIfTrue (43_branch.md section 1): `ip` takes the value of the second operand, whatever it is, when the first is not
zero, and else advances by 3; nothing else changes. -/
def Obligations.JumpIfTrueSelectsTheTarget : Prop :=
  ∀ (s : State) (m1 m2 : Mode), s.SrcOk 0 m1 → s.SrcOk 1 m2 →
    ∃ t, exec (.jumpIfTrue m1 m2) s = .next t ∧
      (s.operand 0 m1 ≠ 0 → t.ip = s.operand 1 m2) ∧ (s.operand 0 m1 = 0 → t.ip = s.ip + 3) ∧
      SameTape s t ∧ t.mem = s.mem ∧ SameControl s t ∧ t.out = s.out ∧ t.input = s.input

/-- JumpIfFalse (43_branch.md section 1): the condition is inverted. -/
def Obligations.JumpIfFalseSelectsTheTarget : Prop :=
  ∀ (s : State) (m1 m2 : Mode), s.SrcOk 0 m1 → s.SrcOk 1 m2 →
    ∃ t, exec (.jumpIfFalse m1 m2) s = .next t ∧
      (s.operand 0 m1 = 0 → t.ip = s.operand 1 m2) ∧ (s.operand 0 m1 ≠ 0 → t.ip = s.ip + 3) ∧
      SameTape s t ∧ t.mem = s.mem ∧ SameControl s t ∧ t.out = s.out ∧ t.input = s.input

/-- 45_halt.md R110: Halt sets the status and nothing else, `ip` stays at the Halt, any higher digits of its cell are ignored,
and no further step is enabled. That the higher digits are ignored, the second clause, rests on the spec's decision D5 (log 9). -/
def Obligations.HaltStopsTheRun : Prop :=
  (∀ s : State, ∃ t, exec .halt s = .next t ∧ t.status = .halted ∧ t.ip = s.ip ∧ t.mem = s.mem ∧ SameTape s t ∧
    t.out = s.out ∧ t.input = s.input ∧ t.cfg = s.cfg ∧ t.faultKind = s.faultKind ∧ t.faultIp = s.faultIp ∧
    ¬∃ u, step t = .next u) ∧
  (∀ (s : State) (h : Nat), s.status = .running → s.Valid s.ip → s.cell s.ip = 99 + 100 * (h : Int) → step s = exec .halt s)

/-! ## Faults -/

/-- 60_exceptions.md R125: fault entry writes the kind, `ip` and the status, and changes nothing else; the run stops. -/
def Obligations.FaultEntryRecordsKindAndIp : Prop :=
  ∀ (s : State) (k : FaultKind), FaultTaken s (raise s k) k ∧ ¬∃ u, step (raise s k) = .next u

/-- A declared parameter beyond the tape is AddressOutOfBounds for every instruction that has it (40_execution_loop.md
section 2, an inference the spec marks as derived), with nothing written. -/
def Obligations.MissingParameterCellFaults : Prop :=
  ∀ (i : Instr) (s : State) (k : Nat), k < i.arity → ¬s.ParamOk k →
    ∃ t, exec i s = .next t ∧ FaultTaken s t .addressOutOfBounds

/-- A source that does not resolve is AddressOutOfBounds for every instruction that has it, also for the target of a branch
that would not be taken (40_execution_loop.md section 2, 43_branch.md section 2). -/
def Obligations.UnresolvedSourceFaults : Prop :=
  ∀ (i : Instr) (s : State) (k : Nat) (m : Mode), (k, m) ∈ sourceParams i → ¬s.SrcOk k m →
    ∃ t, exec i s = .next t ∧ FaultTaken s t .addressOutOfBounds

/-- Overflow of Add and Multiply is ArithmeticOverflow, with nothing written, whether or not the destination is valid: the
spec's decisions D2 and D8 (log 13, log 15). -/
def Obligations.OverflowFaultsBeforeTheDestination : Prop :=
  ∀ (s : State) (m1 m2 m3 : Mode), s.SrcOk 0 m1 → s.SrcOk 1 m2 → s.ParamOk 2 →
    (¬s.cfg.InRange (s.operand 0 m1 + s.operand 1 m2) →
      ∃ t, exec (.add m1 m2 m3) s = .next t ∧ FaultTaken s t .arithmeticOverflow) ∧
    (¬s.cfg.InRange (s.operand 0 m1 * s.operand 1 m2) →
      ∃ t, exec (.multiply m1 m2 m3) s = .next t ∧ FaultTaken s t .arithmeticOverflow)

/-- A destination outside the tape is AddressOutOfBounds, with nothing written (41_arithmetic.md, 44_compare.md). -/
def Obligations.BadDestinationFaults : Prop :=
  ∀ (s : State) (m1 m2 m3 : Mode), s.SrcOk 0 m1 → s.SrcOk 1 m2 → s.ParamOk 2 → ¬s.Valid (s.param 2) →
    (s.cfg.InRange (s.operand 0 m1 + s.operand 1 m2) →
      ∃ t, exec (.add m1 m2 m3) s = .next t ∧ FaultTaken s t .addressOutOfBounds) ∧
    (s.cfg.InRange (s.operand 0 m1 * s.operand 1 m2) →
      ∃ t, exec (.multiply m1 m2 m3) s = .next t ∧ FaultTaken s t .addressOutOfBounds) ∧
    (∃ t, exec (.lessThan m1 m2 m3) s = .next t ∧ FaultTaken s t .addressOutOfBounds) ∧
    (∃ t, exec (.equals m1 m2 m3) s = .next t ∧ FaultTaken s t .addressOutOfBounds)

/-- Faults are precise (60_exceptions.md section 3; D14, log 12): the faulting step has written no cell, sent nothing and
left `ip`; a Read alone may have taken an answer of the port. -/
def Obligations.FaultsArePrecise : Prop :=
  ∀ s t : State, step s = .next t → t.status = .faulted →
    t.mem = s.mem ∧ t.out = s.out ∧ t.ip = s.ip ∧ t.faultIp = some s.ip ∧ t.cfg = s.cfg ∧
    (t.input = s.input ∨
      ∃ m a, decode (s.cell s.ip) = .ok (.read m) ∧ SourceAnswers s.cfg s.input a t.input ∧ a ≠ .wait)

/-- Which kinds an instruction can raise after its decode (60_exceptions.md section 1, a table the spec marks as derived). -/
def Obligations.InstructionsRaiseOnlyTheirKinds : Prop :=
  ∀ (i : Instr) (s t : State) (k : FaultKind), s.status = .running → s.ReportOk → exec i s = .next t → t.faultKind = some k →
    i ≠ .halt ∧
    (k = .addressOutOfBounds ∨
      (k = .arithmeticOverflow ∧ ∃ m1 m2 m3, i = .add m1 m2 m3 ∨ i = .multiply m1 m2 m3) ∨
      ((k = .exhaustedInput ∨ k = .parseError ∨ k = .ioError) ∧ ∃ m, i = .read m))

/-! ## `ip`, branches, the ports -/

/-- How `ip` advances (10_state.md section 3; D10 for the bound): a fault, a Halt and a held Read leave it, a taken branch sets
it to the target, everything else adds `1 + arity`. -/
def Obligations.IpAdvancesByTheTable : Prop :=
  ∀ (i : Instr) (s t : State), s.status = .running → exec i s = .next t →
    (t.status = .faulted ∧ t.ip = s.ip) ∨
    (i = .halt ∧ t.status = .halted ∧ t.ip = s.ip) ∨
    ((∃ m q, i = .read m ∧ SourceAnswers s.cfg s.input .wait q) ∧ t.status = .running ∧ t.ip = s.ip) ∨
    (BranchTaken i s ∧ t.status = .running ∧ t.ip = branchTarget i s) ∨
    (¬BranchTaken i s ∧ i ≠ .halt ∧ ¬(∃ m q, i = .read m ∧ SourceAnswers s.cfg s.input .wait q) ∧
      t.status = .running ∧ t.ip = s.ip + 1 + (i.arity : Int))

/-- A jump to an address outside the tape completes, and the NEXT step faults, with `fault_ip` the bad target: the spec's
decision D9 (43_branch.md section 2; log 14). -/
def Obligations.BadJumpTargetFaultsAtTheNextFetch : Prop :=
  ∀ (s : State) (i : Instr) (m1 m2 : Mode), (i = .jumpIfTrue m1 m2 ∨ i = .jumpIfFalse m1 m2) → s.status = .running →
    s.Valid s.ip → decode (s.cell s.ip) = .ok i → s.SrcOk 0 m1 → s.SrcOk 1 m2 → BranchTaken i s →
    ¬s.Valid (s.operand 1 m2) →
    ∃ t u, step s = .next t ∧ t.status = .running ∧ t.ip = s.operand 1 m2 ∧ step t = .next u ∧
      FaultTaken t u .addressOutOfBounds ∧ u.faultIp = some (s.operand 1 m2)

/-- The destination's mode digit, 0 or 1, has no effect (30_encoding.md section 5): the spec's decision D6. -/
def Obligations.DestinationModeHasNoEffect : Prop :=
  ∀ (s : State) (m1 m2 m m' : Mode),
    exec (.add m1 m2 m) s = exec (.add m1 m2 m') s ∧ exec (.multiply m1 m2 m) s = exec (.multiply m1 m2 m') s ∧
    exec (.lessThan m1 m2 m) s = exec (.lessThan m1 m2 m') s ∧ exec (.equals m1 m2 m) s = exec (.equals m1 m2 m') s ∧
    exec (.read m) s = exec (.read m') s

/-- 10_state.md R20: `OUT` is empty at reset, a Write that completes appends exactly its operand, nothing removes or changes
an element, a fault retracts nothing, and no step reads it. -/
def Obligations.OutputOnlyGrowsAndIsNeverRead : Prop :=
  (∀ (c : Config) (image : List Int) (q : InputSource), (resetWith c image q).out = []) ∧
  (∀ s t : State, step s = .next t →
    (t.out = s.out ∧ ((∃ m, decode (s.cell s.ip) = .ok (.write m)) → t.status = .faulted)) ∨
      (t.status = .running ∧ ∃ m, decode (s.cell s.ip) = .ok (.write m) ∧ t.out = s.out ++ [s.operand 0 m])) ∧
  (∀ (s t : State) (o : List Int), step s = .next t →
    ∃ d, t.out = s.out ++ d ∧ step { s with out := o } = .next { t with out := o ++ d })

/-- The input port is used by Read alone (42_io.md section 1): any other instruction leaves the source as it is and does the
same whatever the source holds. -/
def Obligations.InputIsUsedByReadAlone : Prop :=
  ∀ (i : Instr) (s t : State) (q : InputSource), (∀ m, i ≠ .read m) → exec i s = .next t →
    t.input = s.input ∧ exec i { s with input := q } = .next { t with input := q }

/-- A port that answers `wait` for ever holds the run for ever: no fault, no halt, no change (40_execution_loop.md section 4,
60_exceptions.md section 4; D11, D23). -/
def Obligations.HeldReadNeverEnds : Prop :=
  ∀ (s : State) (m : Mode) (n : Nat), s.status = .running → s.Valid s.ip → decode (s.cell s.ip) = .ok (.read m) →
    s.ParamOk 0 → s.input = { answers := [], thereafter := .always .wait } → runFor n s = .notFinished s

/-! ## The host -/

/-- 70_reset_and_hazards.md R157: what the host may read in each status. -/
def Obligations.HostReadsWhatTheStatusAllows : Prop :=
  ∀ s : State, s.ReportOk → readStatus s = s.status ∧ readOut s = s.out ∧
    (s.status = .halted →
      readIp s = some s.ip ∧ readFault s = none ∧
      (∀ a : Int, s.Valid a → readTape s a = some (s.cell a)) ∧
      ∃ tape, readWholeTape s = some tape ∧ tape.length = s.mem.len ∧
        ∀ (i : Nat) (h : i < tape.length), tape[i] = s.cell (i : Int)) ∧
    (s.status = .faulted →
      (∃ k, s.faultKind = some k ∧ readFault s = some (k, s.ip)) ∧
      readIp s = none ∧ readWholeTape s = none ∧ ∀ a, readTape s a = none) ∧
    (s.status = .running → readIp s = none ∧ readFault s = none ∧ readWholeTape s = none ∧ ∀ a, readTape s a = none)

/-- The loader (70_reset_and_hazards.md section 2; D20): an image it gives is not empty and holds Cells only. -/
def Obligations.LoadedListingsHoldCells : Prop :=
  ∀ (c : Config) (text : List Char) (image : List Int), loadListing c text = .ok image →
    1 ≤ image.length ∧ ∀ v ∈ image, c.InRange v

/-- The search harness (70_reset_and_hazards.md section 5): a pair it finds is in the space, its own run halts with the target
at cell 0, and no pair before it in row-major order does. -/
def Obligations.HarnessReturnsTheFirstMatch : Prop :=
  ∀ (h : HarnessArgs) (a b : Nat), harness h = .found a b →
    a < 100 ∧ b < 100 ∧
    (∃ e, candidateRun h a b = some (.ended e) ∧ e.status = .halted ∧ e.cell 0 = h.target) ∧
    ∀ a' b' : Nat, a' < 100 → b' < 100 → (a' < a ∨ (a' = a ∧ b' < b)) →
      ∃ e, candidateRun h a' b' = some (.ended e) ∧ readTape e 0 ≠ some h.target
end

