-- ==== Sys2Proof/Laws/Decode.lean ====
section
/-! SUPPORT. The decoder on mode digits, and the encoder's digits. -/

namespace Sys2Proof

/-- The digit of a mode decodes to the mode. -/
@[simp] theorem decodeMode_digit (m : Mode) : decodeMode m.digit = .ok m := by cases m <;> rfl

/-- A mode digit decodes to a mode exactly when it is that mode's. -/
theorem decodeMode_ok_iff {d : Nat} {m : Mode} : decodeMode d = .ok m ↔ d = m.digit := by
  unfold decodeMode
  split
  · cases m <;> simp [Mode.digit, *]
  · split <;> cases m <;> simp [Mode.digit, *]

/-- A mode digit that is refused is 2 or more, and the fault is InvalidModeDigit (30_encoding.md R58). -/
theorem decodeMode_error_iff {d : Nat} {k : FaultKind} : decodeMode d = .error k ↔ 2 ≤ d ∧ k = .invalidModeDigit := by
  unfold decodeMode
  split
  · simp only [reduceCtorEq, false_iff]; omega
  · split
    · simp only [reduceCtorEq, false_iff]; omega
    · rw [Except.error.injEq, eq_comm]
      exact ⟨fun h => ⟨by omega, h⟩, fun h => h.2⟩

theorem mode_digit_le (m : Mode) : m.digit ≤ 1 := by cases m <;> decide

/-- Format F1 answers exactly the instruction of its mode digit. -/
theorem decodeF1_ok_iff {mk : Mode → Instr} {v : Nat} {i : Instr} :
    decodeF1 mk v = .ok i ↔ ∃ m1 : Mode, dig v 2 = m1.digit ∧ mk m1 = i := by
  constructor
  · intro h
    unfold decodeF1 at h
    split at h
    · exact nomatch h
    · exact ⟨_, decodeMode_ok_iff.mp ‹_›, Except.ok.inj h⟩
  · rintro ⟨m1, h1, rfl⟩
    simp [decodeF1, h1]

/-- Format F2 answers exactly the instruction of its two mode digits. -/
theorem decodeF2_ok_iff {mk : Mode → Mode → Instr} {v : Nat} {i : Instr} :
    decodeF2 mk v = .ok i ↔ ∃ m1 m2 : Mode, dig v 2 = m1.digit ∧ dig v 3 = m2.digit ∧ mk m1 m2 = i := by
  constructor
  · intro h
    unfold decodeF2 at h
    split at h
    · exact nomatch h
    · split at h
      · exact nomatch h
      · exact ⟨_, _, decodeMode_ok_iff.mp ‹_›, decodeMode_ok_iff.mp ‹_›, Except.ok.inj h⟩
  · rintro ⟨m1, m2, h1, h2, rfl⟩
    simp [decodeF2, h1, h2]

/-- Format F3 answers exactly the instruction of its three mode digits. -/
theorem decodeF3_ok_iff {mk : Mode → Mode → Mode → Instr} {v : Nat} {i : Instr} :
    decodeF3 mk v = .ok i ↔
      ∃ m1 m2 m3 : Mode, dig v 2 = m1.digit ∧ dig v 3 = m2.digit ∧ dig v 4 = m3.digit ∧ mk m1 m2 m3 = i := by
  constructor
  · intro h
    unfold decodeF3 at h
    split at h
    · exact nomatch h
    · split at h
      · exact nomatch h
      · split at h
        · exact nomatch h
        · exact ⟨_, _, _, decodeMode_ok_iff.mp ‹_›, decodeMode_ok_iff.mp ‹_›, decodeMode_ok_iff.mp ‹_›, Except.ok.inj h⟩
  · rintro ⟨m1, m2, m3, h1, h2, h3, rfl⟩
    simp [decodeF3, h1, h2, h3]

end Sys2Proof
end

