-- ==== Sys2Proof/Laws/State.lean ====
section
/-! SUPPORT. One lemma per field of State per named update: no later proof unfolds a record update. -/

namespace Sys2Proof.Machine

variable (s : State)

/-! Fault entry. -/

@[simp] theorem raise_cfg (k : FaultKind) : (raise s k).cfg = s.cfg := rfl
@[simp] theorem raise_mem (k : FaultKind) : (raise s k).mem = s.mem := rfl
@[simp] theorem raise_ip (k : FaultKind) : (raise s k).ip = s.ip := rfl
@[simp] theorem raise_status (k : FaultKind) : (raise s k).status = .faulted := rfl
@[simp] theorem raise_faultKind (k : FaultKind) : (raise s k).faultKind = some k := rfl
@[simp] theorem raise_faultIp (k : FaultKind) : (raise s k).faultIp = some s.ip := rfl
@[simp] theorem raise_out (k : FaultKind) : (raise s k).out = s.out := rfl
@[simp] theorem raise_input (k : FaultKind) : (raise s k).input = s.input := rfl

/-! The advance of `ip`. -/

@[simp] theorem advance_cfg (n : Nat) : (advance s n).cfg = s.cfg := rfl
@[simp] theorem advance_mem (n : Nat) : (advance s n).mem = s.mem := rfl
@[simp] theorem advance_ip (n : Nat) : (advance s n).ip = s.ip + (n : Int) := rfl
@[simp] theorem advance_status (n : Nat) : (advance s n).status = s.status := rfl
@[simp] theorem advance_faultKind (n : Nat) : (advance s n).faultKind = s.faultKind := rfl
@[simp] theorem advance_faultIp (n : Nat) : (advance s n).faultIp = s.faultIp := rfl
@[simp] theorem advance_out (n : Nat) : (advance s n).out = s.out := rfl
@[simp] theorem advance_input (n : Nat) : (advance s n).input = s.input := rfl

/-! The jump. -/

@[simp] theorem jumpTo_cfg (v : Int) : (jumpTo s v).cfg = s.cfg := rfl
@[simp] theorem jumpTo_mem (v : Int) : (jumpTo s v).mem = s.mem := rfl
@[simp] theorem jumpTo_ip (v : Int) : (jumpTo s v).ip = v := rfl
@[simp] theorem jumpTo_status (v : Int) : (jumpTo s v).status = s.status := rfl
@[simp] theorem jumpTo_faultKind (v : Int) : (jumpTo s v).faultKind = s.faultKind := rfl
@[simp] theorem jumpTo_faultIp (v : Int) : (jumpTo s v).faultIp = s.faultIp := rfl
@[simp] theorem jumpTo_out (v : Int) : (jumpTo s v).out = s.out := rfl
@[simp] theorem jumpTo_input (v : Int) : (jumpTo s v).input = s.input := rfl

/-! Halting. -/

@[simp] theorem enterHalted_cfg : (enterHalted s).cfg = s.cfg := rfl
@[simp] theorem enterHalted_mem : (enterHalted s).mem = s.mem := rfl
@[simp] theorem enterHalted_ip : (enterHalted s).ip = s.ip := rfl
@[simp] theorem enterHalted_status : (enterHalted s).status = .halted := rfl
@[simp] theorem enterHalted_faultKind : (enterHalted s).faultKind = s.faultKind := rfl
@[simp] theorem enterHalted_faultIp : (enterHalted s).faultIp = s.faultIp := rfl
@[simp] theorem enterHalted_out : (enterHalted s).out = s.out := rfl
@[simp] theorem enterHalted_input : (enterHalted s).input = s.input := rfl

/-! The output. -/

@[simp] theorem outSend_cfg (c : Int) : (outSend s c).cfg = s.cfg := rfl
@[simp] theorem outSend_mem (c : Int) : (outSend s c).mem = s.mem := rfl
@[simp] theorem outSend_ip (c : Int) : (outSend s c).ip = s.ip := rfl
@[simp] theorem outSend_status (c : Int) : (outSend s c).status = s.status := rfl
@[simp] theorem outSend_faultKind (c : Int) : (outSend s c).faultKind = s.faultKind := rfl
@[simp] theorem outSend_faultIp (c : Int) : (outSend s c).faultIp = s.faultIp := rfl
@[simp] theorem outSend_out (c : Int) : (outSend s c).out = s.out ++ [c] := rfl
@[simp] theorem outSend_input (c : Int) : (outSend s c).input = s.input := rfl

/-! The request to the input port. -/

@[simp] theorem inRecv_answer : (inRecv s).1 = InputSource.next s.cfg s.input := rfl
@[simp] theorem inRecv_cfg : (inRecv s).2.cfg = s.cfg := rfl
@[simp] theorem inRecv_mem : (inRecv s).2.mem = s.mem := rfl
@[simp] theorem inRecv_ip : (inRecv s).2.ip = s.ip := rfl
@[simp] theorem inRecv_status : (inRecv s).2.status = s.status := rfl
@[simp] theorem inRecv_faultKind : (inRecv s).2.faultKind = s.faultKind := rfl
@[simp] theorem inRecv_faultIp : (inRecv s).2.faultIp = s.faultIp := rfl
@[simp] theorem inRecv_out : (inRecv s).2.out = s.out := rfl
@[simp] theorem inRecv_input : (inRecv s).2.input = InputSource.rest s.input := rfl

/-! A store to the tape. -/

@[simp] theorem set_len (m : Memory) (a : Nat) (v : Int) : (m.set a v).len = m.len := rfl
@[simp] theorem ofImage_len (image : List Int) : (Memory.ofImage image).len = image.length := rfl

/-! Reset with the host's arguments. -/

@[simp] theorem resetWith_cfg (c : Config) (image : List Int) (q : InputSource) : (resetWith c image q).cfg = c := rfl
@[simp] theorem resetWith_mem (c : Config) (image : List Int) (q : InputSource) : (resetWith c image q).mem = Memory.ofImage image := rfl
@[simp] theorem resetWith_ip (c : Config) (image : List Int) (q : InputSource) : (resetWith c image q).ip = 0 := rfl
@[simp] theorem resetWith_status (c : Config) (image : List Int) (q : InputSource) : (resetWith c image q).status = .running := rfl
@[simp] theorem resetWith_faultKind (c : Config) (image : List Int) (q : InputSource) : (resetWith c image q).faultKind = none := rfl
@[simp] theorem resetWith_faultIp (c : Config) (image : List Int) (q : InputSource) : (resetWith c image q).faultIp = none := rfl
@[simp] theorem resetWith_out (c : Config) (image : List Int) (q : InputSource) : (resetWith c image q).out = [] := rfl
@[simp] theorem resetWith_input (c : Config) (image : List Int) (q : InputSource) : (resetWith c image q).input = q := rfl

/-- Without arguments but the defaults, reset is `State.reset`. -/
theorem resetWith_default :
    resetWith Config.default [] { answers := [], thereafter := .always (.fail .exhaustedInput) } = State.reset := rfl

end Sys2Proof.Machine
end

