-- ==== Sys2Proof/Laws/Memory.lean ====
section
/-! SUPPORT. The laws of the tape: read after write, the canonical form, and the tape of an image. -/

namespace Sys2Proof.Machine

/-- An address reads as the unlisted value, or its value is listed. -/
theorem lookup_listed (cells : List (Nat × Int)) (a : Nat) :
    Memory.lookup cells a = Memory.unlisted ∨ (a, Memory.lookup cells a) ∈ cells := by
  induction cells with
  | nil => exact .inl rfl
  | cons p rest ih =>
    obtain ⟨b, w⟩ := p
    by_cases h : a = b
    · subst h; simp [Memory.lookup]
    · simp only [Memory.lookup, if_neg h, List.mem_cons]
      exact ih.imp id .inr

/-- An address that no entry has reads as the unlisted value. -/
theorem lookup_of_absent (cells : List (Nat × Int)) (a : Nat) (h : ∀ p ∈ cells, p.1 ≠ a) :
    Memory.lookup cells a = Memory.unlisted := by
  rcases lookup_listed cells a with h' | h'
  · exact h'
  · exact absurd rfl (h _ h')

/-- The entries of a store are the old ones and the new one, which is listed only where it differs from the unlisted value. -/
theorem mem_store {cells : List (Nat × Int)} {a : Nat} {v : Int} {p : Nat × Int} (h : p ∈ Memory.store cells a v) :
    p ∈ cells ∨ (p = (a, v) ∧ v ≠ Memory.unlisted) := by
  induction cells with
  | nil =>
    simp only [Memory.store] at h
    split at h <;> simp_all
  | cons q rest ih =>
    obtain ⟨b, w⟩ := q
    simp only [Memory.store] at h
    split at h
    · split at h
      · exact .inl h
      · rcases List.mem_cons.mp h with h | h
        · exact .inr ⟨h, by assumption⟩
        · exact .inl h
    · split at h
      · split at h
        · exact .inl (List.mem_cons_of_mem _ h)
        · rcases List.mem_cons.mp h with h | h
          · exact .inr ⟨h, by assumption⟩
          · exact .inl (List.mem_cons_of_mem _ h)
      · rcases List.mem_cons.mp h with h | h
        · exact .inl (h ▸ List.mem_cons_self)
        · exact (ih h).imp (List.mem_cons_of_mem _) id

/-- A store changes no other address. -/
theorem lookup_store_other (cells : List (Nat × Int)) {a b : Nat} (v : Int) (h : b ≠ a) :
    Memory.lookup (Memory.store cells a v) b = Memory.lookup cells b := by
  induction cells with
  | nil => simp only [Memory.store]; split <;> simp [Memory.lookup, h]
  | cons q rest ih =>
    obtain ⟨c, w⟩ := q
    simp only [Memory.store]
    split
    · split <;> simp [Memory.lookup, h]
    · split
      · subst_vars; split <;> simp [Memory.lookup, h]
      · simp [Memory.lookup, ih]

/-- A store is read back. -/
theorem lookup_store_same {cells : List (Nat × Int)} (h : cells.Pairwise (fun p q => p.1 < q.1)) (a : Nat) (v : Int) :
    Memory.lookup (Memory.store cells a v) a = v := by
  induction cells with
  | nil => simp only [Memory.store]; split <;> simp_all [Memory.lookup]
  | cons q rest ih =>
    obtain ⟨b, w⟩ := q
    obtain ⟨hb, hr⟩ := List.pairwise_cons.mp h
    simp only [Memory.store]
    split
    case isTrue hab =>
      split
      case isTrue hv =>
        rw [hv]
        refine lookup_of_absent _ _ fun p hp => ?_
        rcases List.mem_cons.mp hp with rfl | hp
        · exact Nat.ne_of_gt hab
        · exact Nat.ne_of_gt (Nat.lt_trans hab (hb p hp))
      case isFalse => simp [Memory.lookup]
    case isFalse hab =>
      split
      case isTrue heq =>
        subst heq
        split
        case isTrue hv => rw [hv]; exact lookup_of_absent _ _ fun p hp => Nat.ne_of_gt (hb p hp)
        case isFalse => simp [Memory.lookup]
      case isFalse hne => simp [Memory.lookup, hne, ih hr]

/-- A store keeps the addresses strictly rising. -/
theorem store_sorted {cells : List (Nat × Int)} (h : cells.Pairwise (fun p q => p.1 < q.1)) (a : Nat) (v : Int) :
    (Memory.store cells a v).Pairwise (fun p q => p.1 < q.1) := by
  induction cells with
  | nil => simp only [Memory.store]; split <;> simp
  | cons q rest ih =>
    obtain ⟨b, w⟩ := q
    obtain ⟨hb, hr⟩ := List.pairwise_cons.mp h
    simp only [Memory.store]
    split
    case isTrue hab =>
      split
      · exact h
      · refine List.pairwise_cons.mpr ⟨fun p hp => ?_, h⟩
        rcases List.mem_cons.mp hp with rfl | hp
        · exact hab
        · exact Nat.lt_trans hab (hb p hp)
    case isFalse hab =>
      split
      case isTrue heq => subst heq; split; exacts [hr, List.pairwise_cons.mpr ⟨hb, hr⟩]
      case isFalse hne =>
        refine List.pairwise_cons.mpr ⟨fun p hp => ?_, ih hr⟩
        rcases mem_store hp with hp | ⟨rfl, -⟩
        · exact hb p hp
        · show b < a; omega

/-- `M[a]` after a store to `a`. -/
theorem get_set_same {m : Memory} (h : m.wf) (a : Nat) (v : Int) : (m.set a v).get a = v :=
  lookup_store_same h.1 a v

/-- `M[b]` after a store to another address: no other cell changes (20_memory.md R33). -/
theorem get_set_other (m : Memory) {a b : Nat} (v : Int) (h : b ≠ a) : (m.set a v).get b = m.get b :=
  lookup_store_other m.cells v h

/-- A store inside the tape keeps the canonical form. -/
theorem set_wf {m : Memory} (h : m.wf) {a : Nat} (ha : a < m.len) (v : Int) : (m.set a v).wf := by
  refine ⟨store_sorted h.1 a v, fun p hp => ?_⟩
  rcases mem_store hp with hp | ⟨rfl, hv⟩
  · exact h.2 p hp
  · exact ⟨ha, hv⟩

/-- What holds of the unlisted value and of every entry holds of every cell. -/
theorem get_of_cells {m : Memory} {P : Int → Prop} (h0 : P Memory.unlisted) (h : ∀ p ∈ m.cells, P p.2) (a : Nat) :
    P (m.get a) := by
  rcases lookup_listed m.cells a with h' | h'
  · exact (show m.get a = _ from h') ▸ h0
  · exact h _ h'

/-- Where an entry of an image comes from. -/
theorem mem_entries {a : Nat} {image : List Int} {p : Nat × Int} (h : p ∈ Memory.entries a image) :
    a ≤ p.1 ∧ p.1 < a + image.length ∧ p.2 ∈ image ∧ p.2 ≠ Memory.unlisted := by
  induction image generalizing a with
  | nil => simp [Memory.entries] at h
  | cons v rest ih =>
    simp only [Memory.entries] at h
    split at h
    · obtain ⟨h1, h2, h3, h4⟩ := ih h
      exact ⟨by omega, by simp only [List.length_cons]; omega, List.mem_cons_of_mem _ h3, h4⟩
    · rcases List.mem_cons.mp h with rfl | h
      · exact ⟨Nat.le_refl _, by simp, List.mem_cons_self, by assumption⟩
      · obtain ⟨h1, h2, h3, h4⟩ := ih h
        exact ⟨by omega, by simp only [List.length_cons]; omega, List.mem_cons_of_mem _ h3, h4⟩

/-- The entries of an image rise strictly. -/
theorem entries_sorted (a : Nat) (image : List Int) :
    (Memory.entries a image).Pairwise (fun p q => p.1 < q.1) := by
  induction image generalizing a with
  | nil => simp [Memory.entries]
  | cons v rest ih =>
    simp only [Memory.entries]
    split
    · exact ih (a + 1)
    · exact List.pairwise_cons.mpr ⟨fun p hp => by have := (mem_entries hp).1; simp only at *; omega, ih (a + 1)⟩

/-- The tape of an image is in canonical form. -/
theorem ofImage_wf (image : List Int) : (Memory.ofImage image).wf := by
  refine ⟨entries_sorted 0 image, fun p hp => ?_⟩
  obtain ⟨-, h2, -, h4⟩ := mem_entries hp
  exact ⟨by simpa using h2, h4⟩

theorem lookup_entries (a : Nat) (image : List Int) (i : Nat) (h : i < image.length) :
    Memory.lookup (Memory.entries a image) (a + i) = image[i] := by
  induction image generalizing a i with
  | nil => simp at h
  | cons v rest ih =>
    simp only [Memory.entries]
    cases i with
    | zero =>
      split
      case isTrue hv =>
        simp only [Nat.add_zero, List.getElem_cons_zero, hv]
        exact lookup_of_absent _ _ fun p hp => by have := (mem_entries hp).1; omega
      case isFalse => simp [Memory.lookup]
    | succ j =>
      have hj := ih (a + 1) j (by simpa using h)
      rw [show a + (j + 1) = a + 1 + j by omega]
      split
      · simpa using hj
      · have : a + 1 + j ≠ a := by omega
        simpa [Memory.lookup, this] using hj

/-- `M[i] = IMAGE[i]` after reset (10_state.md R22). -/
theorem get_ofImage (image : List Int) (i : Nat) (h : i < image.length) : (Memory.ofImage image).get i = image[i] := by
  have hi := lookup_entries 0 image i h
  rwa [Nat.zero_add] at hi

/-- Storing several cells keeps the addresses strictly rising. -/
theorem storeAll_sorted {cells : List (Nat × Int)} (h : cells.Pairwise (fun p q => p.1 < q.1)) (a : Nat) (vs : List Int) :
    (Memory.storeAll cells a vs).Pairwise (fun p q => p.1 < q.1) := by
  induction vs generalizing cells a with
  | nil => exact h
  | cons v rest ih => exact ih (store_sorted h a v) (a + 1)

/-- The entries of several stores are old ones or new ones. -/
theorem mem_storeAll {cells : List (Nat × Int)} {a : Nat} {vs : List Int} {p : Nat × Int}
    (h : p ∈ Memory.storeAll cells a vs) :
    p ∈ cells ∨ (a ≤ p.1 ∧ p.1 < a + vs.length ∧ p.2 ∈ vs ∧ p.2 ≠ Memory.unlisted) := by
  induction vs generalizing cells a with
  | nil => exact .inl h
  | cons v rest ih =>
    rcases ih h with h | ⟨h1, h2, h3, h4⟩
    · rcases mem_store h with h | ⟨rfl, hv⟩
      · exact .inl h
      · exact .inr ⟨Nat.le_refl _, by simp, List.mem_cons_self, hv⟩
    · exact .inr ⟨by omega, by simp only [List.length_cons]; omega, List.mem_cons_of_mem _ h3, h4⟩

/-- Storing several cells leaves the addresses below them alone. -/
theorem lookup_storeAll_below (cells : List (Nat × Int)) {a b : Nat} (vs : List Int) (h : b < a) :
    Memory.lookup (Memory.storeAll cells a vs) b = Memory.lookup cells b := by
  induction vs generalizing cells a with
  | nil => rfl
  | cons v rest ih =>
    exact (ih _ (Nat.lt_succ_of_lt h)).trans (lookup_store_other cells v (Nat.ne_of_lt h))

/-- The first of several cells stored is read back. -/
theorem lookup_storeAll_first {cells : List (Nat × Int)} (h : cells.Pairwise (fun p q => p.1 < q.1)) (a : Nat) (v : Int)
    (rest : List Int) : Memory.lookup (Memory.storeAll cells a (v :: rest)) a = v :=
  (lookup_storeAll_below _ rest (Nat.lt_succ_self a)).trans (lookup_store_same h a v)

end Sys2Proof.Machine
end

