-- ==== Sys2Proof/Laws/Ops.lean ====
section
/-! SUPPORT. One lemma for each shared operation that says once everything it can do. -/

namespace Sys2Proof.Machine

variable {s t : State}

/-- A read inside the tape answers the cell. -/
theorem memRead_of_valid {a : Int} (h : s.Valid a) : memRead s a = .ok (s.cell a) := if_pos h

/-- A read outside the tape raises AddressOutOfBounds. -/
theorem memRead_of_invalid {a : Int} (h : ¬s.Valid a) : memRead s a = .error .addressOutOfBounds := if_neg h

/-- When a read answers a value. -/
theorem memRead_ok_iff {a : Int} {v : Int} : memRead s a = .ok v ↔ s.Valid a ∧ s.cell a = v := by
  by_cases h : s.Valid a
  · rw [memRead_of_valid h]
    exact ⟨fun e => ⟨h, Except.ok.inj e⟩, fun e => e.2 ▸ rfl⟩
  · rw [memRead_of_invalid h]
    exact ⟨nofun, fun e => absurd e.1 h⟩

/-- A write inside the tape. -/
theorem memWrite_of_valid {a : Int} (h : s.Valid a) (v : Int) :
    memWrite s a v = .ok { s with mem := s.mem.set a.toNat v } := if_pos h

/-- A write outside the tape raises AddressOutOfBounds. -/
theorem memWrite_of_invalid {a : Int} (h : ¬s.Valid a) (v : Int) :
    memWrite s a v = .error .addressOutOfBounds := if_neg h

/-- When a write answers a state, and which. -/
theorem memWrite_ok_iff {a : Int} {v : Int} :
    memWrite s a v = .ok t ↔ s.Valid a ∧ t = { s with mem := s.mem.set a.toNat v } := by
  by_cases h : s.Valid a
  · rw [memWrite_of_valid h]
    exact ⟨fun e => ⟨h, (Except.ok.inj e).symm⟩, fun e => e.2 ▸ rfl⟩
  · rw [memWrite_of_invalid h]
    exact ⟨nofun, fun e => absurd e.1 h⟩

/-- Reads are the only faults of the resolver: a source that resolves. -/
theorem src_ok_iff {k : Nat} {m : Mode} {v : Int} : src s k m = .ok v ↔ s.SrcOk k m ∧ s.operand k m = v := by
  by_cases h : s.ParamOk k
  · have hp : memRead s (paramAddr s k) = .ok (s.param k) := memRead_of_valid h
    cases m with
    | immediate =>
      simp only [src, hp]
      exact ⟨fun e => ⟨⟨h, nofun⟩, Except.ok.inj e⟩, fun e => e.2 ▸ rfl⟩
    | position =>
      simp only [src, hp, memRead_ok_iff]
      exact ⟨fun e => ⟨⟨h, fun _ => e.1⟩, e.2⟩, fun e => ⟨e.1.2 rfl, e.2⟩⟩
  · have hp : memRead s (paramAddr s k) = .error .addressOutOfBounds := memRead_of_invalid h
    simp only [src, hp, reduceCtorEq, false_iff]
    exact fun hv => h hv.1.1

/-- A source that does not resolve raises AddressOutOfBounds and nothing else. -/
theorem src_error {k : Nat} {m : Mode} (h : ¬s.SrcOk k m) : src s k m = .error .addressOutOfBounds := by
  by_cases hp : s.ParamOk k
  · have hr : memRead s (paramAddr s k) = .ok (s.param k) := memRead_of_valid hp
    cases m with
    | immediate => exact absurd ⟨hp, nofun⟩ h
    | position =>
      simp only [src, hr]
      exact memRead_of_invalid fun hv => h ⟨hp, fun _ => hv⟩
  · have hr : memRead s (paramAddr s k) = .error .addressOutOfBounds := memRead_of_invalid hp
    simp only [src, hr]

/-- A source that resolves, with its value. -/
theorem src_of_ok {k : Nat} {m : Mode} (h : s.SrcOk k m) : src s k m = .ok (s.operand k m) := src_ok_iff.mpr ⟨h, rfl⟩

/-- When a destination address is answered. -/
theorem dst_ok_iff {k : Nat} {v : Int} : dst s k = .ok v ↔ s.ParamOk k ∧ s.param k = v := memRead_ok_iff

/-- A destination parameter on the tape. -/
theorem dst_of_ok {k : Nat} (h : s.ParamOk k) : dst s k = .ok (s.param k) := memRead_of_valid h

/-- A destination parameter beyond the tape raises AddressOutOfBounds. -/
theorem dst_error {k : Nat} (h : ¬s.ParamOk k) : dst s k = .error .addressOutOfBounds := memRead_of_invalid h

/-- The range check passes a Cell on unchanged. -/
theorem checkRange_ok_iff {c : Config} {r v : Int} : checkRange c r = .ok v ↔ c.InRange r ∧ r = v := by
  by_cases h : c.InRange r
  · rw [checkRange, if_pos h]
    exact ⟨fun e => ⟨h, Except.ok.inj e⟩, fun e => e.2 ▸ rfl⟩
  · rw [checkRange, if_neg h]
    exact ⟨nofun, fun e => absurd e.1 h⟩

/-- A result outside the range raises ArithmeticOverflow. -/
theorem checkRange_error {c : Config} {r : Int} (h : ¬c.InRange r) : checkRange c r = .error .arithmeticOverflow := if_neg h

@[simp] theorem attempt_ok {α : Type} (s : State) (a : α) (go : α → Result) : attempt s (.ok a) go = go a := rfl

@[simp] theorem attempt_error {α : Type} (s : State) (k : FaultKind) (go : α → Result) :
    attempt s (.error k) go = .next (raise s k) := rfl

/-- What a part of a step that may raise can do. -/
theorem attempt_next {α : Type} {x : Except FaultKind α} {go : α → Result} (h : attempt s x go = .next t) :
    (∃ a, x = .ok a ∧ go a = .next t) ∨ ∃ k, x = .error k ∧ t = raise s k := by
  cases x with
  | ok a => exact .inl ⟨a, rfl, h⟩
  | error k => exact .inr ⟨k, rfl, (Host.Outcome.next.inj h).symm⟩

/-- An attempt whose continuation always answers a next state answers one. -/
theorem attempt_total {α : Type} {x : Except FaultKind α} {go : α → Result} (h : ∀ a, ∃ t, go a = .next t) :
    ∃ t, attempt s x go = .next t := by
  cases x with
  | ok a => exact h a
  | error k => exact ⟨_, rfl⟩

/-- Fault entry as claims speak of it (60_exceptions.md R125). -/
theorem raise_faultTaken (s : State) (k : FaultKind) : FaultTaken s (raise s k) k :=
  ⟨rfl, rfl, rfl, rfl, rfl, rfl, rfl, rfl⟩

/-- A store, as claims speak of it. -/
theorem oneCellWritten_set (h : s.mem.wf) {d : Int} (hd : s.Valid d) (v : Int) (t : State)
    (ht : t.mem = s.mem.set d.toNat v) : OneCellWritten s t d v := by
  refine ⟨by rw [ht]; rfl, by rw [State.cell, ht]; exact get_set_same h _ _, fun a ha hne => ?_⟩
  rw [State.cell, ht]
  exact get_set_other _ _ fun h => hne (by have := hd.1; have := ha.1; omega)

/-- The branch condition holds of the nonzero values. -/
@[simp] theorem truthOf_eq_true (v : Int) : truthOf v = true ↔ v ≠ 0 := by simp [truthOf]

/-- The branch condition fails of zero alone. -/
@[simp] theorem truthOf_eq_false (v : Int) : truthOf v = false ↔ v = 0 := by simp [truthOf]

/-- One request to the source, as claims speak of it and as the operations do. -/
theorem sourceAnswers_iff {c : Config} {p q : InputSource} {a : Answer} :
    SourceAnswers c p a q ↔ InputSource.next c p = a ∧ InputSource.rest p = q := by
  obtain ⟨as, z⟩ := p
  obtain ⟨bs, w⟩ := q
  cases as with
  | nil => cases z <;> simp [SourceAnswers, InputSource.next, InputSource.rest, Thereafter.next, Thereafter.rest] <;> tauto
  | cons b rest => simp [SourceAnswers, InputSource.next, InputSource.rest]; tauto

/-- An oracle can give every Cell: its range law changes no value that is one. -/
theorem clampCell_of_inRange {c : Config} {v : Int} (h : c.InRange v) : clampCell c v = v := by
  unfold clampCell
  have := h.1
  have := h.2
  omega

/-- An oracle gives Cells only (42_io.md R95). -/
theorem clampCell_inRange (c : Config) (v : Int) : c.InRange (clampCell c v) := by
  have h : 0 < ((2 ^ (c.cellw - 1) : Nat) : Int) := by exact_mod_cast Nat.pow_pos (by decide)
  unfold Config.InRange clampCell Config.cmin Config.cmax cellMin cellMax
  omega

/-- Every answer of an oracle obeys the one law of R95. -/
theorem oracleAnswer_wf (c : Config) (stream request : Nat) : (oracleAnswer c stream request).wf c = true := by
  unfold oracleAnswer
  split
  · exact decide_eq_true (clampCell_inRange c _)
  · rfl
  · rfl

/-- A source that obeys the law answers by it. -/
theorem inputSource_next_wf {c : Config} {q : InputSource} (h : q.wf c) : (InputSource.next c q).wf c = true := by
  obtain ⟨as, z⟩ := q
  cases as with
  | cons a as => exact h.1 a List.mem_cons_self
  | nil =>
    cases z with
    | always a => exact h.2
    | oracle stream request => exact oracleAnswer_wf c stream request

/-- A source that obeys the law goes on obeying it. -/
theorem inputSource_rest_wf {c : Config} {q : InputSource} (h : q.wf c) : (InputSource.rest q).wf c := by
  obtain ⟨as, z⟩ := q
  cases as with
  | cons a as => exact ⟨fun b hb => h.1 b (List.mem_cons_of_mem a hb), h.2⟩
  | nil => cases z <;> exact h

/-- Numbers of at most 15 bits are Cells of every allowed width (00_scope.md R5). -/
theorem small_inRange {c : Config} (h : c.wf) {v : Int} (h0 : -32768 ≤ v) (h1 : v ≤ 32767) : c.InRange v := by
  have h2 : 2 ^ 15 ≤ 2 ^ (c.cellw - 1) := Nat.pow_le_pow_right (by omega) (by have : 16 ≤ c.cellw := h; omega)
  have h3 : (32768 : Int) ≤ ((2 ^ (c.cellw - 1) : Nat) : Int) := by exact_mod_cast h2
  exact ⟨by unfold Config.cmin cellMin; omega, by unfold Config.cmax cellMax; omega⟩

theorem zero_inRange {c : Config} (h : c.wf) : c.InRange 0 := small_inRange h (by decide) (by decide)

/-- The truth values fit every allowed width. -/
theorem truthCell_inRange {c : Config} (h : c.wf) (b : Bool) : c.InRange (truthCell b) := by
  cases b <;> exact small_inRange h (by decide) (by decide)

/-- Every valid cell of a state that meets the invariant is a Cell of the width. -/
theorem cell_inRange (h : s.Inv) (a : Int) : s.cfg.InRange (s.cell a) := by
  refine get_of_cells (P := s.cfg.InRange) ?_ h.2.2.2.1 _
  exact zero_inRange h.1

/-- An operand of a state that meets the invariant is a Cell of the width. -/
theorem operand_inRange (h : s.Inv) (k : Nat) (m : Mode) : s.cfg.InRange (s.operand k m) := by
  cases m <;> exact cell_inRange h _

end Sys2Proof.Machine
end

