-- ==== Sys2Proof/Laws/Exec.lean ====
section
/-! SUPPORT. What each shape of instruction can do, said once: its completion, and its inversion ("if it answers next t,
then ..."). -/

namespace Sys2Proof.Machine

variable {s t : State}

/-- An arithmetic instruction whose operands resolve, whose exact result is a Cell and whose destination is on the tape. -/
theorem arithmetic_completes {op : Int → Int → Int} {m1 m2 : Mode} (h1 : s.SrcOk 0 m1) (h2 : s.SrcOk 1 m2) (h3 : s.DstOk 2)
    (hr : s.cfg.InRange (op (s.operand 0 m1) (s.operand 1 m2))) :
    arithmetic op m1 m2 s =
      .next (advance { s with mem := s.mem.set (s.param 2).toNat (op (s.operand 0 m1) (s.operand 1 m2)) } 4) := by
  simp only [arithmetic, src_of_ok h1, src_of_ok h2, dst_of_ok h3.1, checkRange, if_pos hr, memWrite_of_valid h3.2, attempt_ok]

/-- What an arithmetic instruction can do. -/
theorem arithmetic_next {op : Int → Int → Int} {m1 m2 : Mode} (h : arithmetic op m1 m2 s = .next t) :
    (∃ k, t = raise s k) ∨
      (s.SrcOk 0 m1 ∧ s.SrcOk 1 m2 ∧ s.DstOk 2 ∧ s.cfg.InRange (op (s.operand 0 m1) (s.operand 1 m2)) ∧
        t = advance { s with mem := s.mem.set (s.param 2).toNat (op (s.operand 0 m1) (s.operand 1 m2)) } 4) := by
  obtain ⟨a, ha, h⟩ | ⟨k, -, rfl⟩ := attempt_next h
  case inr => exact .inl ⟨k, rfl⟩
  obtain ⟨b, hb, h⟩ | ⟨k, -, rfl⟩ := attempt_next h
  case inr => exact .inl ⟨k, rfl⟩
  obtain ⟨d, hd, h⟩ | ⟨k, -, rfl⟩ := attempt_next h
  case inr => exact .inl ⟨k, rfl⟩
  obtain ⟨r, hr, h⟩ | ⟨k, -, rfl⟩ := attempt_next h
  case inr => exact .inl ⟨k, rfl⟩
  obtain ⟨u, hu, h⟩ | ⟨k, -, rfl⟩ := attempt_next h
  case inr => exact .inl ⟨k, rfl⟩
  obtain ⟨hs1, rfl⟩ := src_ok_iff.mp ha
  obtain ⟨hs2, rfl⟩ := src_ok_iff.mp hb
  obtain ⟨hp, rfl⟩ := dst_ok_iff.mp hd
  obtain ⟨hin, rfl⟩ := checkRange_ok_iff.mp hr
  obtain ⟨hv, rfl⟩ := memWrite_ok_iff.mp hu
  exact .inr ⟨hs1, hs2, ⟨hp, hv⟩, hin, (Host.Outcome.next.inj h).symm⟩

/-- A comparison whose operands resolve and whose destination is on the tape. -/
theorem comparison_completes {f : Int → Int → Bool} {m1 m2 : Mode} (h1 : s.SrcOk 0 m1) (h2 : s.SrcOk 1 m2)
    (h3 : s.DstOk 2) :
    comparison f m1 m2 s =
      .next (advance { s with mem := s.mem.set (s.param 2).toNat (truthCell (f (s.operand 0 m1) (s.operand 1 m2))) } 4) := by
  simp only [comparison, src_of_ok h1, src_of_ok h2, dst_of_ok h3.1, memWrite_of_valid h3.2, attempt_ok]

/-- What a comparison can do. -/
theorem comparison_next {f : Int → Int → Bool} {m1 m2 : Mode} (h : comparison f m1 m2 s = .next t) :
    (∃ k, t = raise s k) ∨
      (s.SrcOk 0 m1 ∧ s.SrcOk 1 m2 ∧ s.DstOk 2 ∧
        t = advance { s with mem := s.mem.set (s.param 2).toNat (truthCell (f (s.operand 0 m1) (s.operand 1 m2))) } 4) := by
  obtain ⟨a, ha, h⟩ | ⟨k, -, rfl⟩ := attempt_next h
  case inr => exact .inl ⟨k, rfl⟩
  obtain ⟨b, hb, h⟩ | ⟨k, -, rfl⟩ := attempt_next h
  case inr => exact .inl ⟨k, rfl⟩
  obtain ⟨d, hd, h⟩ | ⟨k, -, rfl⟩ := attempt_next h
  case inr => exact .inl ⟨k, rfl⟩
  obtain ⟨u, hu, h⟩ | ⟨k, -, rfl⟩ := attempt_next h
  case inr => exact .inl ⟨k, rfl⟩
  obtain ⟨hs1, rfl⟩ := src_ok_iff.mp ha
  obtain ⟨hs2, rfl⟩ := src_ok_iff.mp hb
  obtain ⟨hp, rfl⟩ := dst_ok_iff.mp hd
  obtain ⟨hv, rfl⟩ := memWrite_ok_iff.mp hu
  exact .inr ⟨hs1, hs2, ⟨hp, hv⟩, (Host.Outcome.next.inj h).symm⟩

/-- A branch whose operands resolve. -/
theorem branch_completes {f : Int → Bool} {m1 m2 : Mode} (h1 : s.SrcOk 0 m1) (h2 : s.SrcOk 1 m2) :
    branch f m1 m2 s = .next (if f (s.operand 0 m1) then jumpTo s (s.operand 1 m2) else advance s 3) := by
  simp only [branch, src_of_ok h1, src_of_ok h2, attempt_ok]

/-- What a branch can do. -/
theorem branch_next {f : Int → Bool} {m1 m2 : Mode} (h : branch f m1 m2 s = .next t) :
    (∃ k, t = raise s k) ∨
      (s.SrcOk 0 m1 ∧ s.SrcOk 1 m2 ∧ t = if f (s.operand 0 m1) then jumpTo s (s.operand 1 m2) else advance s 3) := by
  obtain ⟨a, ha, h⟩ | ⟨k, -, rfl⟩ := attempt_next h
  case inr => exact .inl ⟨k, rfl⟩
  obtain ⟨b, hb, h⟩ | ⟨k, -, rfl⟩ := attempt_next h
  case inr => exact .inl ⟨k, rfl⟩
  obtain ⟨hs1, rfl⟩ := src_ok_iff.mp ha
  obtain ⟨hs2, rfl⟩ := src_ok_iff.mp hb
  exact .inr ⟨hs1, hs2, (Host.Outcome.next.inj h).symm⟩

/-- What Read does once its parameter cell is on the tape, for each answer of the port. -/
theorem execRead_of_param (m1 : Mode) (h : s.ParamOk 0) :
    execRead m1 s =
      match InputSource.next s.cfg s.input with
      | .wait => .next (inRecv s).2
      | .fail k => .next (raise (inRecv s).2 (failureKind k))
      | .value c => attempt (inRecv s).2 (memWrite (inRecv s).2 (s.param 0) c) fun u => .next (advance u 2) := by
  simp only [execRead, dst_of_ok h, attempt_ok]
  cases hq : InputSource.next s.cfg s.input <;> simp [inRecv, hq]

/-- What Read can do. -/
theorem execRead_next (m1 : Mode) (h : execRead m1 s = .next t) :
    t = raise s .addressOutOfBounds ∨
      (InputSource.next s.cfg s.input = .wait ∧ t = (inRecv s).2) ∨
      (∃ k, InputSource.next s.cfg s.input = .fail k ∧ t = raise (inRecv s).2 (failureKind k)) ∨
      (∃ c, InputSource.next s.cfg s.input = .value c ∧ ¬s.Valid (s.param 0) ∧ t = raise (inRecv s).2 .addressOutOfBounds) ∨
      (∃ c, InputSource.next s.cfg s.input = .value c ∧ s.DstOk 0 ∧
        t = advance { s with mem := s.mem.set (s.param 0).toNat c, input := InputSource.rest s.input } 2) := by
  by_cases hp : s.ParamOk 0
  · rw [execRead_of_param m1 hp] at h
    cases hq : InputSource.next s.cfg s.input with
    | wait => rw [hq] at h; exact .inr (.inl ⟨rfl, (Host.Outcome.next.inj h).symm⟩)
    | fail k => rw [hq] at h; exact .inr (.inr (.inl ⟨k, rfl, (Host.Outcome.next.inj h).symm⟩))
    | value c =>
      rw [hq] at h
      by_cases hv : s.Valid (s.param 0)
      · simp only [memWrite_of_valid (s := (inRecv s).2) (a := s.param 0) hv, attempt_ok] at h
        exact .inr (.inr (.inr (.inr ⟨c, rfl, ⟨hp, hv⟩, (Host.Outcome.next.inj h).symm⟩)))
      · simp only [memWrite_of_invalid (s := (inRecv s).2) (a := s.param 0) hv, attempt_error] at h
        exact .inr (.inr (.inr (.inl ⟨c, rfl, hv, (Host.Outcome.next.inj h).symm⟩)))
  · simp only [execRead, dst_error hp, attempt_error] at h
    exact .inl (Host.Outcome.next.inj h).symm

/-- What Write can do. -/
theorem execWrite_next {m1 : Mode} (h : execWrite m1 s = .next t) :
    (∃ k, t = raise s k) ∨ (s.SrcOk 0 m1 ∧ t = advance (outSend s (s.operand 0 m1)) 2) := by
  obtain ⟨a, ha, h⟩ | ⟨k, -, rfl⟩ := attempt_next h
  case inr => exact .inl ⟨k, rfl⟩
  obtain ⟨hs, rfl⟩ := src_ok_iff.mp ha
  exact .inr ⟨hs, (Host.Outcome.next.inj h).symm⟩

/-- Every instruction answers a next state in every state: a fault of the hardware is one too (log 6). -/
theorem exec_total (i : Instr) (s : State) : ∃ t, exec i s = .next t := by
  cases i with
  | add | multiply =>
    exact attempt_total fun _ => attempt_total fun _ => attempt_total fun _ => attempt_total fun _ => attempt_total fun _ =>
      ⟨_, rfl⟩
  | lessThan | equals =>
    exact attempt_total fun _ => attempt_total fun _ => attempt_total fun _ => attempt_total fun _ => ⟨_, rfl⟩
  | jumpIfTrue | jumpIfFalse => exact attempt_total fun _ => attempt_total fun _ => ⟨_, rfl⟩
  | write => exact attempt_total fun _ => ⟨_, rfl⟩
  | halt => exact ⟨_, rfl⟩
  | read =>
    refine attempt_total fun _ => ?_
    simp only [inRecv]
    split
    · exact ⟨_, rfl⟩
    · exact ⟨_, rfl⟩
    · exact attempt_total fun _ => ⟨_, rfl⟩

end Sys2Proof.Machine
end

