-- ==== Sys2Proof/Laws/PerInstr.lean ====
section
/-! SUPPORT. Statements made for every instruction, one lemma per constructor: the encodings fit the smallest Cell, and how long
each instruction is. -/

namespace Sys2Proof.Laws

/-- The instruction cell is a Cell of every allowed width: "must be at least 16 so that every source example fits"
(00_scope.md R5), and its opcode digits are the table's, never negative (30_encoding.md R50). -/
def EncodeFits.Statement (i : Instr) : Prop := 0 ≤ encode i ∧ encode i ≤ 32767

/-- The length in cells is `1 + arity`, at most four, and counts the sources and the destination (30_encoding.md R51, R62). -/
def LengthIsTheTables.Statement (i : Instr) : Prop :=
  i.length = match i with
    | .add _ _ _ | .multiply _ _ _ | .lessThan _ _ _ | .equals _ _ _ => 4
    | .read _ | .write _ => 2
    | .jumpIfTrue _ _ | .jumpIfFalse _ _ => 3
    | .halt => 1

theorem EncodeFits.add (m1 m2 m3 : Mode) : EncodeFits.Statement (.add m1 m2 m3) :=
  by cases m1 <;> cases m2 <;> cases m3 <;> exact ⟨by decide, by decide⟩

theorem EncodeFits.multiply (m1 m2 m3 : Mode) : EncodeFits.Statement (.multiply m1 m2 m3) :=
  by cases m1 <;> cases m2 <;> cases m3 <;> exact ⟨by decide, by decide⟩

theorem EncodeFits.read (m1 : Mode) : EncodeFits.Statement (.read m1) :=
  by cases m1 <;> exact ⟨by decide, by decide⟩

theorem EncodeFits.write (m1 : Mode) : EncodeFits.Statement (.write m1) :=
  by cases m1 <;> exact ⟨by decide, by decide⟩

theorem EncodeFits.jumpIfTrue (m1 m2 : Mode) : EncodeFits.Statement (.jumpIfTrue m1 m2) :=
  by cases m1 <;> cases m2 <;> exact ⟨by decide, by decide⟩

theorem EncodeFits.jumpIfFalse (m1 m2 : Mode) : EncodeFits.Statement (.jumpIfFalse m1 m2) :=
  by cases m1 <;> cases m2 <;> exact ⟨by decide, by decide⟩

theorem EncodeFits.lessThan (m1 m2 m3 : Mode) : EncodeFits.Statement (.lessThan m1 m2 m3) :=
  by cases m1 <;> cases m2 <;> cases m3 <;> exact ⟨by decide, by decide⟩

theorem EncodeFits.equals (m1 m2 m3 : Mode) : EncodeFits.Statement (.equals m1 m2 m3) :=
  by cases m1 <;> cases m2 <;> cases m3 <;> exact ⟨by decide, by decide⟩

theorem EncodeFits.halt : EncodeFits.Statement .halt :=
  ⟨by decide, by decide⟩

theorem LengthIsTheTables.add (m1 m2 m3 : Mode) : LengthIsTheTables.Statement (.add m1 m2 m3) := rfl

theorem LengthIsTheTables.multiply (m1 m2 m3 : Mode) : LengthIsTheTables.Statement (.multiply m1 m2 m3) := rfl

theorem LengthIsTheTables.read (m1 : Mode) : LengthIsTheTables.Statement (.read m1) := rfl

theorem LengthIsTheTables.write (m1 : Mode) : LengthIsTheTables.Statement (.write m1) := rfl

theorem LengthIsTheTables.jumpIfTrue (m1 m2 : Mode) : LengthIsTheTables.Statement (.jumpIfTrue m1 m2) := rfl

theorem LengthIsTheTables.jumpIfFalse (m1 m2 : Mode) : LengthIsTheTables.Statement (.jumpIfFalse m1 m2) := rfl

theorem LengthIsTheTables.lessThan (m1 m2 m3 : Mode) : LengthIsTheTables.Statement (.lessThan m1 m2 m3) := rfl

theorem LengthIsTheTables.equals (m1 m2 m3 : Mode) : LengthIsTheTables.Statement (.equals m1 m2 m3) := rfl

theorem LengthIsTheTables.halt : LengthIsTheTables.Statement .halt := rfl

end Sys2Proof.Laws
end

