-- ==== Sys2Proof/Laws/Step.lean ====
section
/-! SUPPORT. What a step can do, and the placing of an instruction for the next fetch. -/

namespace Sys2Proof.Machine

variable {s t : State}

/-- A step of a `Running` core is fetch, decode, execute. -/
theorem step_of_status (h : s.status = .running) :
    step s = attempt s (fetch s) fun v => attempt s (decode v) fun i => exec i s := by
  simp only [step, h]

/-- What a step that answers a next state did: the fetch faulted, the decode faulted, or an instruction was executed. -/
theorem step_next (h : step s = .next t) :
    s.status = .running ∧
      ((¬s.Valid s.ip ∧ t = raise s .addressOutOfBounds) ∨
        (s.Valid s.ip ∧ ∃ k, decode (s.cell s.ip) = .error k ∧ t = raise s k) ∨
        (s.Valid s.ip ∧ ∃ i, decode (s.cell s.ip) = .ok i ∧ exec i s = .next t)) := by
  unfold step at h
  split at h
  case h_2 => exact nomatch h
  case h_3 => exact nomatch h
  case h_1 hr =>
    refine ⟨hr, ?_⟩
    by_cases hv : s.Valid s.ip
    · have hf : fetch s = .ok (s.cell s.ip) := memRead_of_valid hv
      rw [hf, attempt_ok] at h
      obtain ⟨i, hi, h⟩ | ⟨k, hk, rfl⟩ := attempt_next h
      · exact .inr (.inr ⟨hv, i, hi, h⟩)
      · exact .inr (.inl ⟨hv, k, hk, rfl⟩)
    · have hf : fetch s = .error .addressOutOfBounds := memRead_of_invalid hv
      rw [hf, attempt_error] at h
      exact .inl ⟨hv, (Host.Outcome.next.inj h).symm⟩

/-- The first cell an instruction placed for the next fetch holds is the one the fetch reads, and the core runs. -/
theorem fetch_placeCells (hm : s.mem.wf) (v : Int) (rest : List Int) :
    (placeCells s (v :: rest)).status = .running ∧ fetch (placeCells s (v :: rest)) = .ok v := by
  refine ⟨rfl, ?_⟩
  have h0 : 0 ≤ placeAt s := by unfold placeAt; split <;> omega
  have hv : (placeCells s (v :: rest)).Valid (placeAt s) := by
    refine ⟨h0, ?_⟩
    simp only [placeCells, List.length_cons]
    omega
  refine (memRead_of_valid hv).trans (congrArg Except.ok ?_)
  exact lookup_storeAll_first hm.1 _ _ _

/-- Placing cells below the bound of R152 keeps the memory canonical. -/
theorem placeCells_wf (hm : s.mem.wf) (vs : List Int) : (placeCells s vs).mem.wf := by
  refine ⟨storeAll_sorted hm.1 _ _, fun p hp => ?_⟩
  rcases mem_storeAll hp with hp | ⟨-, h2, -, h4⟩
  · exact ⟨Nat.lt_of_lt_of_le (hm.2 p hp).1 (Nat.le_max_left _ _), (hm.2 p hp).2⟩
  · exact ⟨Nat.lt_of_lt_of_le h2 (Nat.le_max_right _ _), h4⟩

/-- The host's two fixed names agree: a step from `withFetchWord` executes the instruction `decodeTableWord` reads. -/
theorem step_withFetchWord (hm : s.mem.wf) {nbits w : Nat} {i : Instr} (h : decodeTableWord nbits w = some i) :
    step (s.withFetchWord nbits w) = exec i (s.withFetchWord nbits w) := by
  obtain ⟨v, rest, hc⟩ : ∃ v rest, tableCells nbits w = v :: rest := ⟨_, _, rfl⟩
  obtain ⟨hr, hf⟩ := fetch_placeCells hm v rest
  simp only [decodeTableWord, hc] at h
  simp only [State.withFetchWord, hc, step, hr, hf, attempt_ok]
  cases hd : decode v with
  | ok j => rw [hd] at h; exact congrArg (exec · _) (Option.some.inj h)
  | error k => rw [hd] at h; exact nomatch h

end Sys2Proof.Machine
end

