-- ==== Sys2Proof/Laws/Run.lean ====
section
/-! SUPPORT. How a run under fuel unfolds. -/

namespace Sys2Proof.Machine

variable {s t : State}

/-- While `Running`, a step answers a next state. -/
theorem step_of_running (h : s.status = .running) : ∃ t, step s = .next t := by
  unfold step
  rw [h]
  exact attempt_total fun _ => attempt_total fun i => exec_total i s

/-- A terminal state ends the run at once, whatever the fuel. -/
theorem runFor_of_terminal (n : Nat) (h : s.status ≠ .running) : runFor n s = .ended s := by
  cases n with
  | zero => exact if_neg h
  | succ n => cases hs : s.status <;> simp_all [runFor, step]

/-- One step of fuel is one step. -/
theorem runFor_of_next (n : Nat) (h : step s = .next t) : runFor (n + 1) s = runFor n t := by
  simp only [runFor, h]

/-- Without fuel a `Running` state is not finished. -/
theorem runFor_zero_of_running (h : s.status = .running) : runFor 0 s = .notFinished s := if_pos h

end Sys2Proof.Machine
end

