-- ==== Sys2Proof/Machine/Trace.lean ====
section
/-! DEFINITION. The diagnostic trace (60_exceptions.md R143), produced outside the core from what a step does; no state of
the machine depends on it, and its line format is not specified. -/

namespace Sys2Proof.Machine

/-- The operation name (00_scope.md glossary, 30_encoding.md R64). -/
def operationName (i : Instr) : String :=
  match i with
  | .add _ _ _ => "Add"
  | .multiply _ _ _ => "Multiply"
  | .read _ => "Read"
  | .write _ => "Write"
  | .jumpIfTrue _ _ => "JumpIfTrue"
  | .jumpIfFalse _ _ => "JumpIfFalse"
  | .lessThan _ _ _ => "LessThan"
  | .equals _ _ _ => "Equals"
  | .halt => "Halt"

/-- The tuple of R143: "(ip at fetch, operation name, the resolved Src values and the Dst address, and for Write the value
sent)". -/
structure TraceEntry where
  ip : Int
  operation : String
  sources : List Int
  dest : Option Int
  sent : Option Int
  deriving DecidableEq, Repr

/-- The values of the source parameters that resolve, in parameter order. -/
def resolvedSources (i : Instr) (s : State) : List Int :=
  (sourceParams i).filterMap fun km => (src s km.1 km.2).toOption

/-- The instruction a step in `s` fetches and decodes, where it does. -/
def currentInstr (s : State) : Option Instr :=
  match fetch s with
  | .error _ => none
  | .ok v => (decode v).toOption

/-- The trace of the step from `s`: one tuple for an instruction that completes, none for one that faults or is held.
DESIGN CHOICE (log 18): the spec says "for every executed instruction". -/
def traceOf (s : State) : Option TraceEntry :=
  match currentInstr s, step s with
  | some i, .next t =>
    if t.status = .faulted ∨ (i.arity = 1 ∧ t.ip = s.ip) then none
    else
      some { ip := s.ip
             operation := operationName i
             sources := resolvedSources i s
             dest := (destParam i).bind fun k => (dst s k).toOption
             sent := match i with
               | .write m => (src s 0 m).toOption
               | _ => none }
  | _, _ => none

end Sys2Proof.Machine
end

