-- ==== Sys2Proof/Tests/Slice0.lean ====
section
/-! SUPPORT. Small tests, each expected result from the spec's vectors (95_test_vectors.md, cited by id) or its rules; the smoke
tests of the well-formedness checks; and a witness for the hypotheses of each statement. -/

namespace Sys2Proof.Tests

open Sys2Proof.Machine

/-- A run right after reset, at the default width, with a listing and input values. -/
def load (image : List Int) (ins : List Int) : State := resetWith Config.default image (InputSource.ofValues ins)

/-- The same with an input source of its own. -/
def loadWith (image : List Int) (q : InputSource) : State := resetWith Config.default image q

/-- The next state of one step, if it answers one. -/
def next (s : State) : Option State :=
  match step s with
  | .next t => some t
  | _ => none

/-- A field of the next state of one step. -/
def after {α : Type} (s : State) (f : State → α) : Option α := (next s).map f

/-! ## The checks refuse ill-formed terms -/

theorem test_config_refuses_narrow : ¬Config.wf { cellw := 15 } := by decide
theorem test_config_takes_default : Config.default.wf := by decide
theorem test_length_refuses_too_long : ¬lengthWf { cellw := 16 } 32765 := by decide
theorem test_length_takes_longest : lengthWf { cellw := 16 } 32764 := by decide
theorem test_image_refuses_out_of_range_cell : ¬imageWf { cellw := 16 } [1, 32768] := by decide
theorem test_answer_refuses_out_of_range_value : Answer.wf { cellw := 16 } (.value (-32769)) = false := by decide
theorem test_source_refuses_bad_answer : ¬(InputSource.ofValues [0, 32768]).wf { cellw := 16 } := by decide
theorem test_source_refuses_bad_last_answer :
    ¬InputSource.wf { cellw := 16 } { answers := [], thereafter := .always (.value 32768) } := by decide
theorem test_canonical_refuses_destination_digit : Instr.canonical (.add .position .position .immediate) = false := by decide
theorem test_canonical_refuses_read_digit : Instr.canonical (.read .immediate) = false := by decide
theorem test_operand_refuses_out_of_range : Operand.wf { cellw := 16 } (.immediate 32768) = false := by decide
theorem test_asm_refuses_bad_operand : AsmLine.wf { cellw := 16 } (.jumpIfTrue (.position 0) (.position 40000)) = false := by
  decide
theorem test_asm_refuses_bad_destination : AsmLine.wf { cellw := 16 } (.read 40000) = false := by decide
theorem test_memory_refuses_unsorted : ¬Memory.wf { len := 5, cells := [(2, 1), (1, 1)] } := by decide
theorem test_memory_refuses_listed_zero : ¬Memory.wf { len := 5, cells := [(2, 0)] } := by decide
theorem test_memory_refuses_address_beyond : ¬Memory.wf { len := 5, cells := [(5, 1)] } := by decide

/-! ## Decoding: the vectors E1 to E18 and S1, S2; one cell at least for each constructor -/

theorem test_decode_add : decode 1101 = .ok (.add .immediate .immediate .position) := by decide
theorem test_decode_multiply : decode 1002 = .ok (.multiply .position .immediate .position) := by decide
theorem test_decode_read : decode 3 = .ok (.read .position) := by decide
theorem test_decode_write : decode 104 = .ok (.write .immediate) := by decide
theorem test_decode_jumpIfTrue : decode 1105 = .ok (.jumpIfTrue .immediate .immediate) := by decide
theorem test_decode_jumpIfFalse : decode 106 = .ok (.jumpIfFalse .immediate .position) := by decide
theorem test_decode_lessThan : decode 107 = .ok (.lessThan .immediate .position .position) := by decide
theorem test_decode_equals : decode 1008 = .ok (.equals .position .immediate .position) := by decide
theorem test_decode_halt : decode 299 = .ok .halt := by decide
theorem test_decode_destination_digit : decode 10001 = .ok (.add .position .position .immediate) := by decide
theorem test_decode_surplus_digit : decode 1000001 = .ok (.add .position .position .position) := by decide
theorem test_decode_surplus_digit_write : decode 1004 = .ok (.write .position) := by decide
theorem test_decode_bad_mode_digits :
    [203, 20001, 2101, 1201, 21001, 204, 905].map decode = List.replicate 7 (.error .invalidModeDigit) := by decide
theorem test_decode_unknown :
    [0, 9, 55, 98, 100, 1100, 5000, 109, -1, -99].map decode = List.replicate 10 (.error .unknownOpcode) := by decide
/-- Opcode before mode digits (30_encoding.md R52): 290 has a bad mode digit and a bad opcode. -/
theorem test_decode_opcode_first : decode 290 = .error .unknownOpcode := by decide

/-- 30_encoding.md R64. -/
theorem test_assemble :
    assemble [.add (.position 9) (.position 10) 3, .multiply (.position 4) (.immediate 3) 4, .write (.immediate (-7)),
      .jumpIfTrue (.position 10) (.immediate 0), .read 9, .halt, .data (-1)] =
      [1, 9, 10, 3, 1002, 4, 3, 4, 104, -7, 1005, 10, 0, 3, 9, 99, -1] := by decide
/-- Program P6 of 95_test_vectors.md. -/
theorem test_assemble_P6 :
    assemble [.add (.position 9) (.immediate 4) 9, .jumpIfFalse (.immediate 0) (.position 9), .halt, .write (.immediate 4), .halt]
      = [1001, 9, 4, 9, 106, 0, 9, 99, 104, 4, 99] := by decide

theorem test_tableWord_write : decodeTableWord 8 4 = some (.write .position) := by decide
theorem test_tableWord_halt : decodeTableWord 8 99 = some .halt := by decide
theorem test_tableWord_unknown : decodeTableWord 8 0 = none := by decide
theorem test_withFetchWord_runs : after (State.reset.withFetchWord 8 4) (fun t => (t.out, t.ip)) = some ([4], 2) := by decide

/-! ## The instructions, one step each -/

/-- A1. -/
theorem test_add_position : after (load [1, 5, 6, 7, 99, 20, -30, 0] []) (fun t => (t.cell 7, t.ip)) = some (-10, 4) := by decide
/-- A11. -/
theorem test_add_overflow :
    after (load [1101, 9223372036854775807, 1, 0, 99] []) (fun t => (t.faultKind, t.faultIp, t.cell 0)) =
      some (some .arithmeticOverflow, some 0, 1101) := by decide
/-- A9. -/
theorem test_multiply_mixed : after (load [1002, 4, 3, 4, 33] []) (fun t => (t.cell 4, t.ip)) = some (99, 4) := by decide
/-- A8: CMIN is representable. -/
theorem test_multiply_cmin :
    after (load [1102, -4611686018427387904, 2, 0, 99] []) (fun t => (t.cell 0, t.status)) =
      some (-9223372036854775808, .running) := by decide
/-- I4: Read overwrites its own parameter cell. -/
theorem test_read_own_parameter :
    after (load [3, 1, 99] [5]) (fun t => (t.cell 1, t.ip, t.input.answers)) = some (5, 2, []) := by decide
/-- I9: the value is consumed and lost. -/
theorem test_read_bad_destination :
    after (load [3, 5, 99] [42]) (fun t => (t.faultKind, t.cell 2, t.input.answers)) =
      some (some .addressOutOfBounds, 99, []) := by decide
/-- I5. -/
theorem test_write_immediate : after (load [104, -7, 99] []) (fun t => (t.out, t.ip)) = some ([-7], 2) := by decide
/-- I6. -/
theorem test_write_position : after (load [4, 0, 99] []) (fun t => (t.out, t.cell 0)) = some ([4], 4) := by decide
/-- B3. -/
theorem test_jumpIfTrue_position : after (load [5, 3, 4, 99, 3] []) (fun t => t.ip) = some 3 := by decide
/-- B12: not taken, but the target operand does not resolve. -/
theorem test_jumpIfTrue_unresolved : after (load [105, 0, 50, 99] []) (fun t => (t.faultKind, t.ip)) =
    some (some .addressOutOfBounds, 0) := by decide
/-- B10: the jump completes beyond the tape. -/
theorem test_jumpIfFalse_beyond : after (load [6, 4, 0, 99, 0] []) (fun t => (t.ip, t.status)) = some (6, .running) := by decide
/-- B5. -/
theorem test_jumpIfFalse_not_taken : after (load [1106, 1, 0, 99] []) (fun t => t.ip) = some 3 := by decide
/-- K1: signed. -/
theorem test_lessThan_signed : after (load [1107, -1, 0, 0, 99] []) (fun t => (t.cell 0, t.ip)) = some (1, 4) := by decide
/-- K5: strict, and 0 is written. -/
theorem test_lessThan_strict : after (load [7, 5, 6, 0, 99, -3, -3] []) (fun t => t.cell 0) = some 0 := by decide
/-- K10. -/
theorem test_equals_position : after (load [8, 5, 6, 0, 99, 7, 7] []) (fun t => t.cell 0) = some 1 := by decide
/-- K9. -/
theorem test_equals_unequal : after (load [8, 0, 1, 0, 99] []) (fun t => (t.cell 0, t.ip)) = some (0, 4) := by decide
/-- H1: the Halt leaves `ip`. -/
theorem test_halt : after (load [99] []) (fun t => (t.status, t.ip, t.cell 0)) = some (.halted, 0, 99) := by decide
/-- Priority vector of 95_test_vectors.md section 2.7: the mode digit before the parameters. -/
theorem test_mode_digit_before_parameters : after (load [201, 9, 9, 9] []) (fun t => t.faultKind) = some (some .invalidModeDigit) := by
  decide

/-! ## The procedures of the host -/

/-- Section 2.3, I14: a hold, then the value. -/
theorem test_run_held :
    runFor 2 (loadWith [3, 0, 99] { answers := [.wait, .wait, .value 9], thereafter := .always .wait }) =
      .notFinished (loadWith [3, 0, 99] { answers := [.value 9], thereafter := .always .wait }) := by decide
/-- 70_reset_and_hazards.md R153. -/
theorem test_loader :
    loadListing Config.default ['1', '0', ',', '-', '3', ',', '0', '\n'] = .ok [10, -3, 0] := by decide
theorem test_loader_refuses :
    [[], ['1', ',', ','], ['+', '1'], ['1', ' '], ['-'], ['1', '\n', '2'], ['1', '-', '2']].map (loadListing Config.default) =
      List.replicate 7 (.error .parseError) := by decide
/-- 42_io.md R99. -/
theorem test_backing :
    [.line ['-', '4', '2', '\n'], .line ['x'], .line ['3', '2', '7', '6', '8'], .endOfInput, .streamFailure, .notYet].map
      (backingAnswer { cellw := 16 }) =
      [.value (-42), .fail .parseError, .fail .parseError, .fail .exhaustedInput, .fail .ioError, .wait] := by decide

/-- The arguments of the harness vectors (95_test_vectors.md part 4). -/
def sumArgs (t : Int) (p : HarnessPolicy) : HarnessArgs :=
  { cfg := Config.default, listing := [1, 0, 0, 0, 99], s1 := 1, s2 := 2, target := t, policy := p,
    input := InputSource.ofValues [], fuel := 2 }

theorem test_harness_100 : harness (sumArgs 100 .skip) = .found 0 4 := by decide
theorem test_harness_198_aborts : harness (sumArgs 198 .abort) = .aborted 0 5 .addressOutOfBounds 0 := by decide
theorem test_harness_seed_checked : harness { sumArgs 2 .skip with s2 := 5 } = .refusedByHost := by decide

/-- 60_exceptions.md R143. -/
theorem test_trace_write :
    traceOf (load [4, 0, 99] []) =
      some { ip := 0, operation := "Write", sources := [4], dest := none, sent := some 4 } := by decide
theorem test_trace_add :
    traceOf (load [1001, 4, 95, 4, 4, 0, 99] []) =
      some { ip := 0, operation := "Add", sources := [4, 95], dest := some 4, sent := none } := by decide
theorem test_trace_none_while_held : traceOf (loadWith [3, 0, 99] { answers := [], thereafter := .always .wait }) = none := by decide

/-- 60_exceptions.md R121, 10_state.md R14. -/
theorem test_codes :
    ([Status.running, .halted, .faulted].map statusCode = [0, 1, 2]) ∧
    ([FaultKind.addressOutOfBounds, .unknownOpcode, .invalidModeDigit, .exhaustedInput, .parseError, .ioError,
      .arithmeticOverflow].map faultCode = [1, 2, 3, 4, 5, 6, 7]) ∧ faultCodeView State.reset = 0 := by decide

/-! ## Witnesses: a concrete state and operands that meet the hypotheses of each statement, clause by clause -/

theorem witness_HostResetGivesInvariantStates :
    (hostReset Config.default [] (InputSource.ofValues [])).isSome = true ∧
    (hostReset { cellw := 16 } [32767, -32768] (InputSource.ofValues [32767])).isSome = true ∧
    hostReset { cellw := 16 } [32768] (InputSource.ofValues []) = none := by decide
theorem witness_EveryStepKeepsTheInvariant :
    (load [1, 0, 0, 0, 99] []).Inv ∧ (next (load [1, 0, 0, 0, 99] [])).isSome = true := by decide
theorem witness_FuelNeverChangesHowARunEnds_ended : runFor 1 (load [99] []) = .ended (enterHalted (load [99] [])) := by decide
theorem witness_FuelNeverChangesHowARunEnds_notFinished :
    runFor 0 (load [99] []) = .notFinished (load [99] []) ∧ (load [99] []).Inv := by decide
theorem witness_StepIsEnabledExactlyWhileRunning :
    (next (load [99] [])).isSome = true ∧ (enterHalted (load [99] [])).status = .halted ∧
    (raise (load [] []) .addressOutOfBounds).status = .faulted := by decide
theorem witness_StatusChangesOnlyByHaltOrFault :
    (load [99] []).ReportOk ∧ after (load [99] []) (·.status) = some .halted ∧
    after (load [55] []) (·.status) = some .faulted ∧ after (load [104, 1] []) (·.status) = some .running := by decide
theorem witness_LengthAndWidthNeverChange : (next (load [1101, 1, 1, 0] [])).isSome = true := by decide
theorem witness_MemReadAnswersTheLastWrite :
    (-1 : Int) < 0 ∧ (2 : Int) ≥ ((load [7, 8] []).mem.len : Int) ∧ (1 : Int) < ((load [7, 8] []).mem.len : Int) ∧
    (load [7, 8] []).mem.wf ∧ (memWrite (load [7, 8] []) 1 0).toOption.isSome = true ∧ (0 : Int) ≠ 1 := by decide
theorem witness_MemWriteChangesExactlyOneCell :
    (load [7, 8] []).mem.wf ∧ (-1 : Int) < 0 ∧ (2 : Int) ≥ ((load [7, 8] []).mem.len : Int) ∧
    (0 : Int) ≤ 1 ∧ (1 : Int) < ((load [7, 8] []).mem.len : Int) := by decide
theorem witness_TapeChangesOnlyAtTheDestination :
    (load [1, 0, 0, 0, 99] []).mem.wf ∧ (load [1, 0, 0, 0, 99] []).Valid 0 ∧
    after (load [1, 0, 0, 0, 99] []) (fun t => decide (t.cell 0 ≠ (load [1, 0, 0, 0, 99] []).cell 0)) = some true := by decide
/-- A2: the sum 99 lands on the next instruction cell; with 1 and -1 the sum 0 does, which no opcode is. -/
theorem witness_StoreIsSeenByTheNextFetch :
    ∀ s ∈ [load [1101, 100, -1, 4, 0] [], load [1101, 1, -1, 4, 0] []],
      s.mem.wf ∧ s.status = .running ∧ s.Valid s.ip ∧ decode (s.cell s.ip) = .ok (.add .immediate .immediate .position) ∧
      s.SrcOk 0 .immediate ∧ s.SrcOk 1 .immediate ∧ s.DstOk 2 ∧ s.param 2 = s.ip + 4 ∧
      s.cfg.InRange (s.operand 0 .immediate + s.operand 1 .immediate) := by decide
theorem witness_StoreIsSeenByTheNextFetch_decodes : decode (100 + -1) = .ok .halt ∧ decode (1 + -1) = .error .unknownOpcode := by
  decide
theorem witness_DecodeAndEncodeAgree :
    decode 1000001 = .ok (.add .position .position .position) ∧
    (1000001 : Int) = encode (.add .position .position .position) + ((10 : Nat) : Int) * 10 ^ (2 + 3) := by decide
theorem witness_UnknownOpcodeFaults :
    (0 : Int) ≤ 0 ∧ ¬((9 : Int) % 100 ∈ [1, 2, 3, 4, 5, 6, 7, 8, 99]) ∧ ¬((98 : Int) % 100 ∈ [1, 2, 3, 4, 5, 6, 7, 8, 99]) ∧
    (load [98] []).status = .running ∧ (load [98] []).Valid (load [98] []).ip ∧ 0 ≤ (load [98] []).cell (load [98] []).ip ∧
    ¬((load [98] []).cell (load [98] []).ip % 100 ∈ [1, 2, 3, 4, 5, 6, 7, 8, 99]) := by decide
theorem witness_IllegalModeDigitFaults :
    (1, 3) ∈ [(1, 3), (2, 3), (3, 1), (4, 1), (5, 2), (6, 2), (7, 3), (8, 3), (99, 0)] ∧ 20001 % 100 = 1 ∧
    2 ≤ 20001 / 10 ^ (2 + 2) % 10 ∧ 11101 % 100 = 1 ∧ (∀ k < 3, 11101 / 10 ^ (2 + k) % 10 ≤ 1) := by decide
theorem witness_NegativeCellFaults :
    (-1 : Int) < 0 ∧ (load [-1] []).status = .running ∧ (load [-1] []).Valid (load [-1] []).ip ∧
    (load [-1] []).cell (load [-1] []).ip < 0 := by decide
theorem witness_CanonicalCellsAreTheTwentyEight :
    Instr.canonical (.equals .immediate .immediate .position) = true ∧ encode (.equals .immediate .immediate .position) = 1108 := by
  decide
theorem witness_StepRunsTheDecodedInstruction :
    (load [1101, 1, 1, 0] []).status = .running ∧ (load [1101, 1, 1, 0] []).Valid (load [1101, 1, 1, 0] []).ip ∧
    decode ((load [1101, 1, 1, 0] []).cell (load [1101, 1, 1, 0] []).ip) = .ok (.add .immediate .immediate .position) := by decide
theorem witness_FetchOutsideTheTapeFaults :
    (load [] []).status = .running ∧ ((load [] []).mem.len : Int) ≤ (load [] []).ip ∧
    (jumpTo (load [99] []) (-1)).status = .running ∧ (jumpTo (load [99] []) (-1)).ip < 0 := by decide
theorem witness_DecodeFaultsPrecedeParameters :
    ∀ s ∈ [load [203] [], load [9] [], load [99] []], s.status = .running ∧ s.Valid s.ip := by decide
theorem witness_DecodeFaultsPrecedeParameters_decodes :
    decode ((load [203] []).cell 0) = .error .invalidModeDigit ∧ decode ((load [9] []).cell 0) = .error .unknownOpcode ∧
    decode ((load [99] []).cell 0) = .ok .halt := by decide
/-- S3, with a Position parameter on the tape, one beyond it, and a parameter cell beyond it. -/
theorem witness_ResolverFollowsTheModes :
    (load [1002, 4, 3, 4, 33] []).Valid (0 + 1 + ((0 : Nat) : Int)) ∧
    (load [1002, 4, 3, 4, 33] []).Valid ((load [1002, 4, 3, 4, 33] []).cell (0 + 1 + ((0 : Nat) : Int))) ∧
    ¬(load [4, 2] []).Valid ((load [4, 2] []).cell (0 + 1 + ((0 : Nat) : Int))) ∧
    ¬(load [4, 2] []).Valid (0 + 1 + ((1 : Nat) : Int)) := by decide
theorem witness_AddStoresTheExactSum :
    (load [1, 0, 1, 3] []).mem.wf ∧ (load [1, 0, 1, 3] []).SrcOk 0 .position ∧ (load [1, 0, 1, 3] []).SrcOk 1 .position ∧
    (load [1, 0, 1, 3] []).DstOk 2 ∧
    Config.default.InRange ((load [1, 0, 1, 3] []).operand 0 .position + (load [1, 0, 1, 3] []).operand 1 .position) := by decide
theorem witness_MultiplyStoresTheExactProduct :
    (load [1102, -4611686018427387904, 2, 0] []).mem.wf ∧ (load [1102, -4611686018427387904, 2, 0] []).SrcOk 0 .immediate ∧
    (load [1102, -4611686018427387904, 2, 0] []).SrcOk 1 .immediate ∧ (load [1102, -4611686018427387904, 2, 0] []).DstOk 2 ∧
    Config.default.InRange ((load [1102, -4611686018427387904, 2, 0] []).operand 0 .immediate *
      (load [1102, -4611686018427387904, 2, 0] []).operand 1 .immediate) := by decide
theorem witness_LessThanStoresTheTruthValue :
    ∀ s ∈ [load [1107, -1, 0, 0] [], load [1107, 0, 0, 0] []],
      s.mem.wf ∧ s.SrcOk 0 .immediate ∧ s.SrcOk 1 .immediate ∧ s.DstOk 2 := by decide
theorem witness_LessThanStoresTheTruthValue_both :
    (load [1107, -1, 0, 0] []).operand 0 .immediate < (load [1107, -1, 0, 0] []).operand 1 .immediate ∧
    ¬(load [1107, 0, 0, 0] []).operand 0 .immediate < (load [1107, 0, 0, 0] []).operand 1 .immediate := by decide
theorem witness_EqualsStoresTheTruthValue :
    ∀ s ∈ [load [1108, 5, 5, 0] [], load [1108, 5, 6, 0] []],
      s.mem.wf ∧ s.SrcOk 0 .immediate ∧ s.SrcOk 1 .immediate ∧ s.DstOk 2 := by decide
theorem witness_EqualsStoresTheTruthValue_both :
    (load [1108, 5, 5, 0] []).operand 0 .immediate = (load [1108, 5, 5, 0] []).operand 1 .immediate ∧
    (load [1108, 5, 6, 0] []).operand 0 .immediate ≠ (load [1108, 5, 6, 0] []).operand 1 .immediate := by decide
theorem witness_ReadStoresTheInputValue :
    (load [3, 0, 99] [42]).mem.wf ∧ (load [3, 0, 99] [42]).DstOk 0 ∧
    SourceAnswers Config.default (load [3, 0, 99] [42]).input (.value 42) (InputSource.ofValues []) := by
  simp only [sourceAnswers_iff]; decide
/-- 42_io.md R95: an oracle answers too, each request once, and goes on to its next. -/
theorem witness_SourceAnswers_oracle (stream request : Nat) :
    SourceAnswers Config.default { answers := [], thereafter := .oracle stream request }
      (oracleAnswer Config.default stream request) { answers := [], thereafter := .oracle stream (request + 1) } :=
  sourceAnswers_iff.mpr ⟨rfl, rfl⟩
theorem witness_ReadIsHeldWhileThePortWaits :
    (load [3, 0] []).ParamOk 0 ∧
    SourceAnswers Config.default { answers := [], thereafter := .always .wait } .wait { answers := [], thereafter := .always .wait } ∧
    SourceAnswers Config.default { answers := [.wait], thereafter := .always .wait } .wait { answers := [], thereafter := .always .wait } := by
  simp only [sourceAnswers_iff]; decide
/-- I10, I15, I16: the destination of the first is beyond the tape. -/
theorem witness_ReadRaisesThePortsFailure :
    (load [3, 5] []).ParamOk 0 ∧
    SourceAnswers Config.default (load [3, 5] []).input (.fail .exhaustedInput) (InputSource.ofValues []) ∧
    SourceAnswers Config.default { answers := [.fail .parseError], thereafter := .always .wait } (.fail .parseError)
      { answers := [], thereafter := .always .wait } ∧
    SourceAnswers Config.default { answers := [.fail .ioError], thereafter := .always .wait } (.fail .ioError)
      { answers := [], thereafter := .always .wait } := by
  simp only [sourceAnswers_iff]; decide
theorem witness_ReadWithBadDestinationLosesTheValue :
    (load [3, 2] [42]).ParamOk 0 ∧ ¬(load [3, 2] [42]).Valid ((load [3, 2] [42]).param 0) ∧
    SourceAnswers Config.default (load [3, 2] [42]).input (.value 42) (InputSource.ofValues []) := by
  simp only [sourceAnswers_iff]; decide
theorem witness_WriteAppendsTheOperand :
    (load [4, 1] []).SrcOk 0 .position ∧ (load [104, -7] []).SrcOk 0 .immediate := by decide
theorem witness_JumpIfTrueSelectsTheTarget :
    ∀ s ∈ [load [1105, -1, 3] [], load [1105, 0, 3] []], s.SrcOk 0 .immediate ∧ s.SrcOk 1 .immediate := by decide
theorem witness_JumpIfTrueSelectsTheTarget_both :
    (load [1105, -1, 3] []).operand 0 .immediate ≠ 0 ∧ (load [1105, 0, 3] []).operand 0 .immediate = 0 := by decide
theorem witness_JumpIfFalseSelectsTheTarget :
    ∀ s ∈ [load [1106, 1, 3] [], load [1106, 0, 3] []], s.SrcOk 0 .immediate ∧ s.SrcOk 1 .immediate := by decide
theorem witness_JumpIfFalseSelectsTheTarget_both :
    (load [1106, 1, 3] []).operand 0 .immediate ≠ 0 ∧ (load [1106, 0, 3] []).operand 0 .immediate = 0 := by decide
theorem witness_HaltStopsTheRun :
    (load [100099] []).status = .running ∧ (load [100099] []).Valid (load [100099] []).ip ∧
    (load [100099] []).cell (load [100099] []).ip = 99 + 100 * ((1000 : Nat) : Int) := by decide
/-- K12 and A21: the first and the last parameter cell missing. -/
theorem witness_MissingParameterCellFaults :
    0 < (Instr.lessThan .position .position .position).arity ∧ ¬(load [7] []).ParamOk 0 ∧
    2 < (Instr.add .position .position .position).arity ∧ ¬(load [1, 0, 0] []).ParamOk 2 ∧
    0 < (Instr.read .position).arity ∧ ¬(load [3] []).ParamOk 0 := by decide
/-- A20 and B12. -/
theorem witness_UnresolvedSourceFaults :
    (0, Mode.position) ∈ sourceParams (.add .position .position .position) ∧ ¬(load [1, -1, 0, 0, 99] []).SrcOk 0 .position ∧
    (1, Mode.position) ∈ sourceParams (.jumpIfTrue .immediate .position) ∧ ¬(load [105, 0, 50, 99] []).SrcOk 1 .position := by
  decide
/-- A12 and A13, with the destination beyond the tape. -/
theorem witness_OverflowFaultsBeforeTheDestination :
    (∀ s ∈ [load [1101, -9223372036854775808, -1, 9] [], load [1102, 4611686018427387904, 2, 9] []],
      s.SrcOk 0 .immediate ∧ s.SrcOk 1 .immediate ∧ s.ParamOk 2) ∧
    ¬Config.default.InRange (-9223372036854775808 + -1) ∧ ¬Config.default.InRange (4611686018427387904 * 2) := by decide
/-- A16 and X8: the first address above the tape and the first below. -/
theorem witness_BadDestinationFaults :
    (∀ s ∈ [load [1101, 1, 1, 4] [], load [1102, 1, 1, -1] [], load [1107, 1, 1, 4] [], load [1108, 1, 1, -1] []],
      s.SrcOk 0 .immediate ∧ s.SrcOk 1 .immediate ∧ s.ParamOk 2 ∧ ¬s.Valid (s.param 2)) ∧
    Config.default.InRange (1 + 1) ∧ Config.default.InRange (1 * 1) := by decide
theorem witness_FaultsArePrecise :
    after (load [3, 5, 99] [42]) (·.status) = some .faulted ∧ after (load [1, 9, 0, 0] []) (·.status) = some .faulted := by decide
theorem witness_InstructionsRaiseOnlyTheirKinds :
    (load [1101, 9223372036854775807, 1, 0] []).status = .running ∧ (load [1101, 9223372036854775807, 1, 0] []).ReportOk ∧
    after (load [1101, 9223372036854775807, 1, 0] []) (·.faultKind) = some (some .arithmeticOverflow) ∧
    after (load [3, 0] []) (·.faultKind) = some (some .exhaustedInput) ∧
    after (load [4, 9] []) (·.faultKind) = some (some .addressOutOfBounds) := by decide
/-- One step for each line of the table of 10_state.md R12. -/
theorem witness_IpAdvancesByTheTable :
    after (load [1, 9, 0, 0] []) (·.ip) = some 0 ∧ after (load [99] []) (·.ip) = some 0 ∧
    after (loadWith [3, 0] { answers := [], thereafter := .always .wait }) (·.ip) = some 0 ∧
    after (load [1105, 1, 7] []) (·.ip) = some 7 ∧ after (load [1105, 0, 7] []) (·.ip) = some 3 ∧
    after (load [104, 0] []) (·.ip) = some 2 := by decide
/-- B9 and B10: the first invalid targets below and above. -/
theorem witness_BadJumpTargetFaultsAtTheNextFetch :
    ∀ s ∈ [load [1105, 1, -1] [], load [1105, 1, 3] []],
      s.status = .running ∧ s.Valid s.ip ∧ decode (s.cell s.ip) = .ok (.jumpIfTrue .immediate .immediate) ∧
      s.SrcOk 0 .immediate ∧ s.SrcOk 1 .immediate ∧ s.operand 0 .immediate ≠ 0 ∧ ¬s.Valid (s.operand 1 .immediate) := by decide
theorem witness_BadJumpTargetFaultsAtTheNextFetch_taken :
    BranchTaken (.jumpIfTrue .immediate .immediate) (load [1105, 1, -1] []) :=
  show (load [1105, 1, -1] []).operand 0 .immediate ≠ 0 by decide
theorem witness_BadJumpTargetFaultsAtTheNextFetch_jumpIfFalse :
    BranchTaken (.jumpIfFalse .immediate .immediate) (load [1106, 0, 3] []) ∧
    ¬(load [1106, 0, 3] []).Valid ((load [1106, 0, 3] []).operand 1 .immediate) :=
  ⟨show (load [1106, 0, 3] []).operand 0 .immediate = 0 by decide, by decide⟩
theorem witness_OutputOnlyGrowsAndIsNeverRead :
    after (load [104, 5] []) (·.out) = some [5] ∧ after (load [4, 9] []) (fun t => (t.out, t.status)) = some ([], .faulted) := by
  decide
theorem witness_InputIsUsedByReadAlone :
    (∀ m : Mode, m = .position ∨ m = .immediate → Instr.write .immediate ≠ .read m) ∧
    (next (load [104, 5] [1])).isSome = true := by
  refine ⟨fun m h => ?_, by decide⟩
  rcases h with rfl | rfl <;> decide
theorem witness_HeldReadNeverEnds :
    (loadWith [3, 0, 99] { answers := [], thereafter := .always .wait }).status = .running ∧
    (loadWith [3, 0, 99] { answers := [], thereafter := .always .wait }).Valid 0 ∧
    decode ((loadWith [3, 0, 99] { answers := [], thereafter := .always .wait }).cell 0) = .ok (.read .position) ∧
    (loadWith [3, 0, 99] { answers := [], thereafter := .always .wait }).ParamOk 0 := by decide
theorem witness_HostReadsWhatTheStatusAllows :
    ∀ s ∈ [load [99] [], enterHalted (load [99] []), raise (load [55] []) .unknownOpcode], s.ReportOk := by decide
theorem witness_LoadedListingsHoldCells : loadListing Config.default ['9', '9'] = .ok [99] := by decide
theorem witness_HarnessReturnsTheFirstMatch : harness (sumArgs 100 .abort) = .found 0 4 := by decide

end Sys2Proof.Tests
end

/-! Reset (10_state.md R22) and the output stream (10_state.md R20). -/

namespace Sys2Proof.Machine

/-- `M[i] = IMAGE[i]` right after reset, as claims speak of cells (10_state.md R22). -/
theorem cell_resetWith (c : Config) (image : List Int) (q : InputSource) (i : Nat) (h : i < image.length) :
    (resetWith c image q).cell (i : Int) = image[i] := get_ofImage image i h

/-- Settles O1: each field is one of `resetWith`'s, and the tape is the image's. -/
theorem resetEstablishesTheLoadedRun : Obligations.ResetEstablishesTheLoadedRun := by
  intro c image q
  exact ⟨ofImage_len image, cell_resetWith c image q, resetWith_ip c image q, resetWith_status c image q,
    resetWith_faultKind c image q, resetWith_faultIp c image q, resetWith_out c image q, resetWith_input c image q,
    resetWith_cfg c image q⟩

section

variable {s t : State}

/-- No instruction but Write changes `OUT`, whether it completes, is held or faults. -/
theorem exec_out_of_not_write {i : Instr} (hi : ∀ m, i ≠ .write m) (h : exec i s = .next t) : t.out = s.out := by
  cases i with
  | add | multiply =>
    obtain ⟨k, rfl⟩ | ⟨-, -, -, -, rfl⟩ := arithmetic_next h <;> rfl
  | lessThan | equals =>
    obtain ⟨k, rfl⟩ | ⟨-, -, -, rfl⟩ := comparison_next h <;> rfl
  | jumpIfTrue | jumpIfFalse =>
    obtain ⟨k, rfl⟩ | ⟨-, -, rfl⟩ := branch_next h
    · rfl
    · split <;> rfl
  | read m1 =>
    obtain rfl | ⟨-, rfl⟩ | ⟨k, -, rfl⟩ | ⟨c, -, -, rfl⟩ | ⟨c, -, -, rfl⟩ := execRead_next m1 h <;> rfl
  | write m1 => exact absurd rfl (hi m1)
  | halt => cases h; rfl

/-- What a step does to `OUT`: it appends the operand of a Write that completes, and otherwise nothing; then a Write that was
fetched has faulted. -/
theorem step_out (h : step s = .next t) :
    (t.out = s.out ∧ ((∃ m, decode (s.cell s.ip) = .ok (.write m)) → t.status = .faulted)) ∨
      (t.status = .running ∧ ∃ m, decode (s.cell s.ip) = .ok (.write m) ∧ t.out = s.out ++ [s.operand 0 m]) := by
  obtain ⟨hr, ⟨-, rfl⟩ | ⟨-, k, -, rfl⟩ | ⟨-, i, hi, he⟩⟩ := step_next h
  · exact .inl ⟨rfl, fun _ => rfl⟩
  · exact .inl ⟨rfl, fun _ => rfl⟩
  · by_cases hw : ∃ m, i = .write m
    · obtain ⟨m, rfl⟩ := hw
      obtain ⟨k, rfl⟩ | ⟨-, rfl⟩ := execWrite_next he
      · exact .inl ⟨rfl, fun _ => rfl⟩
      · exact .inr ⟨hr, m, hi, rfl⟩
    · refine .inl ⟨exec_out_of_not_write (not_exists.mp hw) he, fun ⟨m, hm⟩ => absurd ⟨m, ?_⟩ hw⟩
      exact Except.ok.inj (hi.symm.trans hm)

/-- An outcome that is a function of the output so far does nothing with it but append: the values `d` sent and the rest of
the next state are the same whatever was sent before. -/
def AppendsOnly (r : List Int → Result) : Prop :=
  ∃ (d : List Int) (t : State), ∀ o, r o = .next { t with out := o ++ d }

/-- A next state that keeps the output appends nothing. -/
theorem appendsOnly_keep (t : State) : AppendsOnly fun o => .next { t with out := o } :=
  ⟨[], t, fun o => by rw [List.append_nil]⟩

/-- A part of a step that does not look at the output may raise: the fault retracts nothing. -/
theorem appendsOnly_attempt {α : Type} (s : State) (x : Except FaultKind α) {go : List Int → α → Result}
    (h : ∀ a, AppendsOnly fun o => go o a) : AppendsOnly fun o => attempt { s with out := o } x (go o) := by
  cases x with
  | ok a => exact h a
  | error k => exact appendsOnly_keep (raise s k)

/-- A store to the tape, with the advance after it, neither sends nor looks at the output. -/
theorem appendsOnly_store (s : State) (a v : Int) (n : Nat) :
    AppendsOnly fun o => attempt { s with out := o } (memWrite { s with out := o } a v) fun u => .next (advance u n) := by
  by_cases hv : s.Valid a
  · simp only [fun o => memWrite_of_valid (s := { s with out := o }) hv v, attempt_ok]
    exact appendsOnly_keep (advance { s with mem := s.mem.set a.toNat v } n)
  · simp only [fun o => memWrite_of_invalid (s := { s with out := o }) hv v, attempt_error]
    exact appendsOnly_keep (raise s .addressOutOfBounds)

/-- No instruction looks at the output. -/
theorem exec_appendsOnly (i : Instr) (s : State) : AppendsOnly fun o => exec i { s with out := o } := by
  cases i with
  | add m1 m2 | multiply m1 m2 =>
    exact appendsOnly_attempt s (src s 0 m1) fun _ => appendsOnly_attempt s (src s 1 m2) fun _ =>
      appendsOnly_attempt s (dst s 2) fun dest => appendsOnly_attempt s (checkRange s.cfg _) fun r =>
        appendsOnly_store s dest r 4
  | lessThan m1 m2 | equals m1 m2 =>
    exact appendsOnly_attempt s (src s 0 m1) fun _ => appendsOnly_attempt s (src s 1 m2) fun _ =>
      appendsOnly_attempt s (dst s 2) fun dest => appendsOnly_store s dest (truthCell _) 4
  | jumpIfTrue m1 m2 | jumpIfFalse m1 m2 =>
    refine appendsOnly_attempt s (src s 0 m1) fun _ => appendsOnly_attempt s (src s 1 m2) fun target => ?_
    split
    · exact appendsOnly_keep (jumpTo s target)
    · exact appendsOnly_keep (advance s 3)
  | read m1 =>
    refine appendsOnly_attempt s (dst s 0) fun dest => ?_
    simp only [inRecv]
    cases InputSource.next s.cfg s.input with
    | wait => exact appendsOnly_keep (inRecv s).2
    | fail k => exact appendsOnly_keep (raise (inRecv s).2 (failureKind k))
    | value c => exact appendsOnly_store (inRecv s).2 dest c 2
  | write m1 =>
    exact appendsOnly_attempt s (src s 0 m1) fun val => ⟨[val], advance s 2, fun _ => rfl⟩
  | halt => exact appendsOnly_keep (enterHalted s)

/-- A step of a `Running` core does not look at the output. -/
theorem step_appendsOnly (h : s.status = .running) : AppendsOnly fun o => step { s with out := o } := by
  simp only [fun o => step_of_status (s := { s with out := o }) h]
  exact appendsOnly_attempt s (fetch s) fun v => appendsOnly_attempt s (decode v) fun i => exec_appendsOnly i s

/-- The step from any other output is the same step, with the same values sent after that output. -/
theorem step_withOut (h : step s = .next t) (o : List Int) :
    ∃ d, t.out = s.out ++ d ∧ step { s with out := o } = .next { t with out := o ++ d } := by
  obtain ⟨d, u, hu⟩ := step_appendsOnly (step_next h).1
  have ht : t = { u with out := s.out ++ d } := Host.Outcome.next.inj (h.symm.trans (hu s.out))
  subst ht
  exact ⟨d, rfl, hu o⟩

end

/-- Settles O45: `step_out` says what one step sends, `step_withOut` that it does not depend on what was sent before. -/
theorem outputOnlyGrowsAndIsNeverRead : Obligations.OutputOnlyGrowsAndIsNeverRead :=
  ⟨resetWith_out, fun _ _ => step_out, fun _ _ o h => step_withOut h o⟩

end Sys2Proof.Machine

/-! The tape primitives `MemRead` and `MemWrite` (20_memory.md R32 and R33). -/

namespace Sys2Proof.Machine

section

variable {s t : State} {a b v : Int}

/-- The addresses that are not valid are those below 0 and those from `LEN` on (20_memory.md R31). -/
theorem not_valid_iff : ¬s.Valid a ↔ a < 0 ∨ a ≥ (s.mem.len : Int) := by
  rw [State.Valid, not_and_or, not_le, not_lt]

/-- A write that completes writes exactly one cell (20_memory.md R33). -/
theorem memWrite_oneCellWritten (hwf : s.mem.wf) (h : memWrite s a v = .ok t) : OneCellWritten s t a v := by
  obtain ⟨ha, rfl⟩ := memWrite_ok_iff.mp h
  exact oneCellWritten_set hwf ha v _ rfl

/-- A write that completes was to a valid address, and every address stays as valid as it was. -/
theorem memWrite_valid (h : memWrite s a v = .ok t) : s.Valid a ∧ ∀ b, t.Valid b ↔ s.Valid b := by
  obtain ⟨ha, rfl⟩ := memWrite_ok_iff.mp h
  exact ⟨ha, fun _ => Iff.rfl⟩

/-- A write that completes keeps the canonical form of the tape. -/
theorem memWrite_wf (hwf : s.mem.wf) (h : memWrite s a v = .ok t) : t.mem.wf := by
  obtain ⟨ha, rfl⟩ := memWrite_ok_iff.mp h
  exact set_wf hwf (by have := ha.1; have := ha.2; omega) v

/-- A write that completes changes nothing but the tape. -/
theorem memWrite_frame (h : memWrite s a v = .ok t) :
    SameControl s t ∧ t.ip = s.ip ∧ t.out = s.out ∧ t.input = s.input := by
  obtain ⟨-, rfl⟩ := memWrite_ok_iff.mp h
  exact ⟨⟨rfl, rfl, rfl, rfl, rfl⟩, rfl, rfl, rfl⟩

/-- A read of the written address answers the value written. -/
theorem memRead_memWrite_same (hwf : s.mem.wf) (h : memWrite s a v = .ok t) : memRead t a = .ok v := by
  obtain ⟨ha, hvalid⟩ := memWrite_valid h
  obtain ⟨-, hcell, -⟩ := memWrite_oneCellWritten hwf h
  exact memRead_ok_iff.mpr ⟨(hvalid a).mpr ha, hcell⟩

/-- A read of any other address, valid or not, answers what it answered before the write. -/
theorem memRead_memWrite_other (hwf : s.mem.wf) (h : memWrite s a v = .ok t) (hne : b ≠ a) :
    memRead t b = memRead s b := by
  obtain ⟨-, hvalid⟩ := memWrite_valid h
  obtain ⟨-, -, hother⟩ := memWrite_oneCellWritten hwf h
  by_cases hb : s.Valid b
  · rw [memRead_of_valid hb, memRead_of_valid ((hvalid b).mpr hb), hother b hb hne]
  · rw [memRead_of_invalid hb, memRead_of_invalid (mt (hvalid b).mp hb)]

/-- Right after reset a read inside the tape answers the cell of the image (10_state.md R22). -/
theorem memRead_resetWith (c : Config) (image : List Int) (q : InputSource) (i : Nat) (h : i < image.length) :
    memRead (resetWith c image q) (i : Int) = .ok image[i] := by
  have hv : (resetWith c image q).Valid (i : Int) := ⟨Int.natCast_nonneg i, Int.ofNat_lt.mpr h⟩
  rw [memRead_of_valid hv, cell_resetWith c image q i h]

end

/-- Settles O9: the bounds check, then a read after a write to the same and to another address, then a read after reset. -/
theorem memReadAnswersTheLastWrite : Obligations.MemReadAnswersTheLastWrite :=
  ⟨fun _ _ h => memRead_of_invalid (not_valid_iff.mpr h), fun _ _ h0 h1 => memRead_of_valid ⟨h0, h1⟩,
    fun _ _ _ _ => memRead_memWrite_same, fun _ _ _ _ _ => memRead_memWrite_other, memRead_resetWith⟩

/-- Settles O10: a write inside the tape completes, with the cell, the canonical form and the frame each by its lemma. -/
theorem memWriteChangesExactlyOneCell : Obligations.MemWriteChangesExactlyOneCell := by
  intro s a v hwf
  refine ⟨fun h => memWrite_of_invalid (not_valid_iff.mpr h) v, fun h0 h1 => ?_⟩
  have h := memWrite_of_valid ⟨h0, h1⟩ v
  exact ⟨_, h, memWrite_oneCellWritten hwf h, memWrite_wf hwf h, memWrite_frame h⟩

end Sys2Proof.Machine

/-! The opcode digits (30_encoding.md R53 and R56) and the step's decode fault (40_execution_loop.md R72). -/

namespace Sys2Proof

/-- Format F1 raises nothing but InvalidModeDigit. -/
theorem decodeF1_error {mk : Mode → Instr} {v : Nat} {k : FaultKind} (h : decodeF1 mk v = .error k) :
    k = .invalidModeDigit := by
  unfold decodeF1 at h
  split at h
  · cases h; exact (decodeMode_error_iff.mp ‹_›).2
  · exact nomatch h

/-- Format F2 raises nothing but InvalidModeDigit. -/
theorem decodeF2_error {mk : Mode → Mode → Instr} {v : Nat} {k : FaultKind} (h : decodeF2 mk v = .error k) :
    k = .invalidModeDigit := by
  unfold decodeF2 at h
  split at h
  · cases h; exact (decodeMode_error_iff.mp ‹_›).2
  · split at h
    · cases h; exact (decodeMode_error_iff.mp ‹_›).2
    · exact nomatch h

/-- Format F3 raises nothing but InvalidModeDigit. -/
theorem decodeF3_error {mk : Mode → Mode → Mode → Instr} {v : Nat} {k : FaultKind} (h : decodeF3 mk v = .error k) :
    k = .invalidModeDigit := by
  unfold decodeF3 at h
  split at h
  · cases h; exact (decodeMode_error_iff.mp ‹_›).2
  · split at h
    · cases h; exact (decodeMode_error_iff.mp ‹_›).2
    · split at h
      · cases h; exact (decodeMode_error_iff.mp ‹_›).2
      · exact nomatch h

/-- A cell with one of the nine opcodes does not raise UnknownOpcode, whatever its mode digits are; one without does. -/
theorem decodeNat_unknownOpcode_iff {v : Nat} :
    decodeNat v = .error .unknownOpcode ↔ v % 100 ∉ [1, 2, 3, 4, 5, 6, 7, 8, 99] := by
  unfold decodeNat
  split
  case h_1 h | h_2 h | h_7 h | h_8 h => rw [h]; exact iff_of_false (fun e => nomatch decodeF3_error e) (by decide)
  case h_3 h | h_4 h => rw [h]; exact iff_of_false (fun e => nomatch decodeF1_error e) (by decide)
  case h_5 h | h_6 h => rw [h]; exact iff_of_false (fun e => nomatch decodeF2_error e) (by decide)
  case h_9 h => rw [h]; exact iff_of_false nofun (by decide)
  case h_10 h1 h2 h3 h4 h5 h6 h7 h8 h99 =>
    refine iff_of_true rfl ?_
    simp only [List.mem_cons, List.not_mem_nil, or_false, not_or]
    exact ⟨h1, h2, h3, h4, h5, h6, h7, h8, h99⟩

/-- A nonnegative cell decodes as the number it is. -/
theorem decode_natCast (v : Nat) : decode (v : Int) = decodeNat v := if_neg (by omega)

/-- `decodeNat_unknownOpcode_iff` on Cells (30_encoding.md R56). -/
theorem decode_unknownOpcode_iff {v : Int} (hv : 0 ≤ v) :
    decode v = .error .unknownOpcode ↔ v % 100 ∉ [1, 2, 3, 4, 5, 6, 7, 8, 99] := by
  lift v to Nat using hv
  rw [decode_natCast, decodeNat_unknownOpcode_iff]
  simp only [List.mem_cons, List.not_mem_nil, or_false]
  omega

/-- The illegal opcodes are 0 and 9 to 98 (30_encoding.md R56). -/
theorem opcode_illegal_iff (v : Int) :
    v % 100 ∉ [1, 2, 3, 4, 5, 6, 7, 8, 99] ↔ v % 100 = 0 ∨ (9 ≤ v % 100 ∧ v % 100 ≤ 98) := by
  simp only [List.mem_cons, List.not_mem_nil, or_false]
  omega

namespace Machine

/-- A fetched cell that does not decode makes the step take the decoder's fault. -/
theorem step_of_decode_error {s : State} {k : FaultKind} (hr : s.status = .running) (hv : s.Valid s.ip)
    (hk : decode (s.cell s.ip) = .error k) : step s = .next (raise s k) := by
  have hf : fetch s = .ok (s.cell s.ip) := memRead_of_valid hv
  rw [step_of_status hr, hf, attempt_ok, hk, attempt_error]

/-- Settles O15: the decoder by its opcode map, the list of nine against the ranges, and the step by its decode fault. -/
theorem unknownOpcodeFaults : Obligations.UnknownOpcodeFaults := by
  refine ⟨fun v hv => ?_, fun s hr hv h0 hop => ?_⟩
  · have h := decode_unknownOpcode_iff hv
    exact ⟨h, h.trans (opcode_illegal_iff v)⟩
  · exact ⟨_, step_of_decode_error hr hv ((decode_unknownOpcode_iff h0).mpr hop), raise_faultTaken s _⟩

end Machine

end Sys2Proof

/-! The decode and the operand resolver (40_execution_loop.md R72 to R76). -/

namespace Sys2Proof

/-- The opcode map raises UnknownOpcode for a number it has no entry for, and a mode digit's fault for one it has. -/
theorem decodeNat_error {v : Nat} {k : FaultKind} (h : decodeNat v = .error k) :
    k = .unknownOpcode ∨ k = .invalidModeDigit := by
  unfold decodeNat at h
  split at h
  case h_1 | h_2 | h_7 | h_8 => exact .inr (decodeF3_error h)
  case h_3 | h_4 => exact .inr (decodeF1_error h)
  case h_5 | h_6 => exact .inr (decodeF2_error h)
  case h_9 => exact nomatch h
  case h_10 => exact .inl (Except.error.inj h).symm

/-- Decode raises UnknownOpcode or InvalidModeDigit only (40_execution_loop.md R72); a negative cell raises the former. -/
theorem decode_error {v : Int} {k : FaultKind} (h : decode v = .error k) :
    k = .unknownOpcode ∨ k = .invalidModeDigit := by
  unfold decode at h
  split at h
  · exact .inl (Except.error.inj h).symm
  · exact decodeNat_error h

namespace Machine

section

variable {s : State} {k : Nat}

/-- A fetched cell that decodes makes the step the instruction's execution. -/
theorem step_of_decode_ok {i : Instr} (hr : s.status = .running) (hv : s.Valid s.ip)
    (hi : decode (s.cell s.ip) = .ok i) : step s = exec i s := by
  have hf : fetch s = .ok (s.cell s.ip) := memRead_of_valid hv
  rw [step_of_status hr, hf, attempt_ok, hi, attempt_ok]

/-- A source parameter cell beyond the tape raises AddressOutOfBounds in either mode (40_execution_loop.md R76). -/
theorem src_of_param_invalid (h : ¬s.ParamOk k) (m : Mode) : src s k m = .error .addressOutOfBounds :=
  src_error fun hs => h hs.1

/-- In Immediate mode the source is the parameter cell (40_execution_loop.md R74). -/
theorem src_immediate (h : s.ParamOk k) : src s k .immediate = .ok (s.param k) := src_of_ok ⟨h, nofun⟩

/-- In Position mode the source is the cell the parameter names, one level of indirection (40_execution_loop.md R74). -/
theorem src_position (h : s.ParamOk k) (hp : s.Valid (s.param k)) : src s k .position = .ok (s.cell (s.param k)) :=
  src_of_ok ⟨h, fun _ => hp⟩

/-- In Position mode a parameter that names no cell of the tape raises AddressOutOfBounds (40_execution_loop.md R74). -/
theorem src_position_invalid (hp : ¬s.Valid (s.param k)) : src s k .position = .error .addressOutOfBounds :=
  src_error fun hs => hp (hs.2 rfl)

end

/-- Settles O21: a cell that decodes is executed, and one that does not gives the decoder's fault with no parameter read. -/
theorem decodeFaultsPrecedeParameters : Obligations.DecodeFaultsPrecedeParameters := by
  intro s hr hv
  exact ⟨fun _ => step_of_decode_ok hr hv, fun k hk =>
    ⟨decode_error hk, raise s k, step_of_decode_error hr hv hk, raise_faultTaken s k⟩⟩

/-- Settles O22: the parameter cell beyond the tape, then `Src` in each mode and `Dst`, each by its lemma. -/
theorem resolverFollowsTheModes : Obligations.ResolverFollowsTheModes := by
  intro s k
  refine ⟨fun h => ?_, fun h => ?_⟩
  · exact ⟨src_of_param_invalid h, dst_error h⟩
  · exact ⟨src_immediate h, dst_of_ok h, src_position h, src_position_invalid⟩

end Machine

end Sys2Proof

/-! Halt (45_halt.md R110). -/

namespace Sys2Proof

/-- A cell whose opcode digits are 99 is a Halt, whatever digits stand above them (30_encoding.md R60). -/
theorem decode_opcode_halt (h : Nat) : decode (99 + 100 * (h : Int)) = .ok .halt := by
  have hv : 99 + 100 * (h : Int) = ((99 + 100 * h : Nat) : Int) := by omega
  rw [hv, decode_natCast, decodeNat, Nat.add_mul_mod_self_left]
  rfl

namespace Machine

/-- Halt completes in every state, and only the status changes. -/
theorem exec_halt (s : State) : exec .halt s = .next (enterHalted s) := rfl

/-- A core that is not `Running` performs no step (10_state.md R14). -/
theorem no_step_of_not_running {s : State} (h : s.status ≠ .running) : ¬∃ u, step s = .next u :=
  fun ⟨_, hu⟩ => h (step_next hu).1

/-- Settles O34: the state Halt gives is `enterHalted`'s, which is not `Running`, and the decoder ignores the higher digits. -/
theorem haltStopsTheRun : Obligations.HaltStopsTheRun := by
  refine ⟨fun s => ?_, fun s h hr hv hc => ?_⟩
  · have hstop : ¬∃ u, step (enterHalted s) = .next u := no_step_of_not_running nofun
    exact ⟨enterHalted s, exec_halt s, rfl, rfl, rfl, ⟨rfl, fun _ _ => rfl⟩, rfl, rfl, rfl, rfl, rfl, hstop⟩
  · have hd : decode (s.cell s.ip) = .ok .halt := hc ▸ decode_opcode_halt h
    exact step_of_decode_ok hr hv hd

end Machine

end Sys2Proof

/-! Fault entry (60_exceptions.md R125). -/

namespace Sys2Proof.Machine

/-- A core that has taken a fault performs no further step (10_state.md R14). -/
theorem no_step_of_raise (s : State) (k : FaultKind) : ¬∃ u, step (raise s k) = .next u :=
  no_step_of_not_running (by simp [raise_status])

/-- Settles O35: the three writes and their frame are `raise_faultTaken`, and the status they leave is not `Running`. -/
theorem faultEntryRecordsKindAndIp : Obligations.FaultEntryRecordsKindAndIp := by
  intro s k
  exact ⟨raise_faultTaken s k, no_step_of_raise s k⟩

end Sys2Proof.Machine

/-! The host's transactions (70_reset_and_hazards.md R155 and R157). -/

namespace Sys2Proof.Machine

section

variable {s : State}

/-- Of a halted run the host reads `ip`. -/
theorem readIp_of_halted (h : s.status = .halted) : readIp s = some s.ip := if_pos h

/-- Of any other run the host does not read `ip`. -/
theorem readIp_of_not_halted (h : s.status ≠ .halted) : readIp s = none := if_neg h

/-- Of a halted run the host reads every cell of the tape. -/
theorem readTape_of_halted (h : s.status = .halted) {a : Int} (ha : s.Valid a) : readTape s a = some (s.cell a) :=
  if_pos ⟨h, ha⟩

/-- Of any other run the host reads no cell. -/
theorem readTape_of_not_halted (h : s.status ≠ .halted) (a : Int) : readTape s a = none := if_neg fun hh => h hh.1

/-- Of a halted run the host reads the whole tape `M[0 .. LEN-1]`, in the order of the addresses. -/
theorem readWholeTape_of_halted (h : s.status = .halted) :
    ∃ tape, readWholeTape s = some tape ∧ tape.length = s.mem.len ∧
      ∀ (i : Nat) (hi : i < tape.length), tape[i] = s.cell (i : Int) := by
  refine ⟨(List.range s.mem.len).map s.mem.get, if_pos h, ?_, fun i hi => ?_⟩
  · rw [List.length_map, List.length_range]
  · rw [List.getElem_map, List.getElem_range]
    rfl

/-- Of any other run the host does not read the whole tape. -/
theorem readWholeTape_of_not_halted (h : s.status ≠ .halted) : readWholeTape s = none := if_neg h

/-- Of a faulted run the host reads the fault report, `fault_ip` being the `ip` of the fault (10_state.md R15). -/
theorem readFault_of_faulted (hok : s.ReportOk) (h : s.status = .faulted) :
    ∃ k, s.faultKind = some k ∧ readFault s = some (k, s.ip) := by
  obtain ⟨-, hkind, hip⟩ | ⟨hne, -, -⟩ := hok
  · obtain ⟨k, hk⟩ := Option.isSome_iff_exists.mp hkind
    exact ⟨k, hk, by rw [readFault, h, hk, hip]⟩
  · exact absurd h hne

/-- Of any other run the host reads no fault report. -/
theorem readFault_of_not_faulted (h : s.status ≠ .faulted) : readFault s = none := by
  unfold readFault
  split
  case h_1 hf _ _ => exact absurd hf h
  case h_2 => rfl

/-- A run that has not halted shows the host nothing of its `ip` or its tape. -/
theorem reads_of_not_halted (h : s.status ≠ .halted) :
    readIp s = none ∧ readWholeTape s = none ∧ ∀ a, readTape s a = none :=
  ⟨readIp_of_not_halted h, readWholeTape_of_not_halted h, readTape_of_not_halted h⟩

end

/-- Settles O48: the reads that need `Halted` and the one that needs `Faulted`, each by its lemma in each status. -/
theorem hostReadsWhatTheStatusAllows : Obligations.HostReadsWhatTheStatusAllows := by
  intro s hok
  refine ⟨rfl, rfl, fun hhalted => ?_, fun hfaulted => ?_, fun hrunning => ?_⟩
  · have hf : s.status ≠ .faulted := by rw [hhalted]; decide
    exact ⟨readIp_of_halted hhalted, readFault_of_not_faulted hf, fun _ => readTape_of_halted hhalted,
      readWholeTape_of_halted hhalted⟩
  · have hh : s.status ≠ .halted := by rw [hfaulted]; decide
    exact ⟨readFault_of_faulted hok hfaulted, reads_of_not_halted hh⟩
  · have hh : s.status ≠ .halted := by rw [hrunning]; decide
    have hf : s.status ≠ .faulted := by rw [hrunning]; decide
    obtain ⟨hip, htape⟩ := reads_of_not_halted hh
    exact ⟨hip, readFault_of_not_faulted hf, htape⟩

end Sys2Proof.Machine

/-! What an instruction whose parameters resolve does in each case, and what it does where they do not (40_execution_loop.md
R73 to R78). -/

namespace Sys2Proof.Machine

section

variable {s t : State} {m1 m2 : Mode}

/-- The parameters of `i` resolve: every source has a value and the destination parameter, if any, is on the tape
(40_execution_loop.md R74, R75). -/
def Resolved (i : Instr) (s : State) : Prop :=
  (∀ km ∈ sourceParams i, s.SrcOk km.1 km.2) ∧ ∀ k, destParam i = some k → s.ParamOk k

/-- Two sources and the destination parameter 3: the parameters of Add, Multiply, LessThan and Equals. -/
theorem resolved_three {i : Instr} (hs : sourceParams i = [(0, m1), (1, m2)]) (hd : destParam i = some 2) :
    Resolved i s ↔ s.SrcOk 0 m1 ∧ s.SrcOk 1 m2 ∧ s.ParamOk 2 := by
  simp [Resolved, hs, hd, and_assoc]

/-- Two sources and no destination: the parameters of the branches. -/
theorem resolved_two {i : Instr} (hs : sourceParams i = [(0, m1), (1, m2)]) (hd : destParam i = none) :
    Resolved i s ↔ s.SrcOk 0 m1 ∧ s.SrcOk 1 m2 := by
  simp [Resolved, hs, hd]

/-- Read has the destination parameter alone. -/
theorem resolved_read : Resolved (.read m1) s ↔ s.ParamOk 0 := by
  simp [Resolved, sourceParams, destParam]

/-- Write has one source alone. -/
theorem resolved_write : Resolved (.write m1) s ↔ s.SrcOk 0 m1 := by
  simp [Resolved, sourceParams, destParam]

/-- Halt has no parameter. -/
theorem resolved_halt : Resolved .halt s := by
  simp [Resolved, sourceParams, destParam]

/-- Every declared parameter is a source or the destination (30_encoding.md R53), so its cell is on the tape. -/
theorem Resolved.paramOk {i : Instr} (h : Resolved i s) {k : Nat} (hk : k < i.arity) : s.ParamOk k := by
  cases i with
  | add | multiply | lessThan | equals =>
    obtain ⟨h0, h1, h2⟩ := (resolved_three rfl rfl).mp h
    match k, hk with
    | 0, _ => exact h0.1
    | 1, _ => exact h1.1
    | 2, _ => exact h2
  | jumpIfTrue | jumpIfFalse =>
    obtain ⟨h0, h1⟩ := (resolved_two rfl rfl).mp h
    match k, hk with
    | 0, _ => exact h0.1
    | 1, _ => exact h1.1
  | read => match k, hk with | 0, _ => exact resolved_read.mp h
  | write => match k, hk with | 0, _ => exact (resolved_write.mp h).1
  | halt => exact absurd hk (Nat.not_lt_zero k)

/-- The two sources and the destination parameter are read one after the other; where one does not resolve, the rest of the
instruction is not performed. -/
theorem attempt_three_unresolved {go : Int → Int → Int → Result} (h : ¬(s.SrcOk 0 m1 ∧ s.SrcOk 1 m2 ∧ s.ParamOk 2)) :
    (attempt s (src s 0 m1) fun a => attempt s (src s 1 m2) fun b => attempt s (dst s 2) fun d => go a b d) =
      .next (raise s .addressOutOfBounds) := by
  by_cases h0 : s.SrcOk 0 m1
  · by_cases h1 : s.SrcOk 1 m2
    · have h2 : ¬s.ParamOk 2 := fun h2 => h ⟨h0, h1, h2⟩
      simp only [src_of_ok h0, src_of_ok h1, dst_error h2, attempt_ok, attempt_error]
    · simp only [src_of_ok h0, src_error h1, attempt_ok, attempt_error]
  · simp only [src_error h0, attempt_error]

/-- The same for an instruction with two sources alone. -/
theorem attempt_two_unresolved {go : Int → Int → Result} (h : ¬(s.SrcOk 0 m1 ∧ s.SrcOk 1 m2)) :
    (attempt s (src s 0 m1) fun a => attempt s (src s 1 m2) fun b => go a b) = .next (raise s .addressOutOfBounds) := by
  by_cases h0 : s.SrcOk 0 m1
  · have h1 : ¬s.SrcOk 1 m2 := fun h1 => h ⟨h0, h1⟩
    simp only [src_of_ok h0, src_error h1, attempt_ok, attempt_error]
  · simp only [src_error h0, attempt_error]

/-- An instruction with a parameter that does not resolve takes AddressOutOfBounds and does nothing else. -/
theorem exec_of_unresolved {i : Instr} (h : ¬Resolved i s) : exec i s = .next (raise s .addressOutOfBounds) := by
  cases i with
  | add | multiply | lessThan | equals => exact attempt_three_unresolved (mt (resolved_three rfl rfl).mpr h)
  | jumpIfTrue | jumpIfFalse => exact attempt_two_unresolved (mt (resolved_two rfl rfl).mpr h)
  | read m => simp only [exec, execRead, dst_error (mt resolved_read.mpr h), attempt_error]
  | write m => simp only [exec, execWrite, src_error (mt resolved_write.mpr h), attempt_error]
  | halt => exact absurd resolved_halt h

/-- A result outside the range faults before the destination is checked (41_arithmetic.md R89, R90). -/
theorem arithmetic_overflow {op : Int → Int → Int} (h1 : s.SrcOk 0 m1) (h2 : s.SrcOk 1 m2) (h3 : s.ParamOk 2)
    (hr : ¬s.cfg.InRange (op (s.operand 0 m1) (s.operand 1 m2))) :
    arithmetic op m1 m2 s = .next (raise s .arithmeticOverflow) := by
  simp only [arithmetic, src_of_ok h1, src_of_ok h2, dst_of_ok h3, checkRange_error hr, attempt_ok, attempt_error]

/-- A result that is a Cell has nowhere to go where the destination is outside the tape. -/
theorem arithmetic_bad_destination {op : Int → Int → Int} (h1 : s.SrcOk 0 m1) (h2 : s.SrcOk 1 m2) (h3 : s.ParamOk 2)
    (hr : s.cfg.InRange (op (s.operand 0 m1) (s.operand 1 m2))) (hd : ¬s.Valid (s.param 2)) :
    arithmetic op m1 m2 s = .next (raise s .addressOutOfBounds) := by
  simp only [arithmetic, src_of_ok h1, src_of_ok h2, dst_of_ok h3, checkRange_ok_iff.mpr ⟨hr, rfl⟩, memWrite_of_invalid hd,
    attempt_ok, attempt_error]

/-- A comparison's truth value has nowhere to go where the destination is outside the tape. -/
theorem comparison_bad_destination {f : Int → Int → Bool} (h1 : s.SrcOk 0 m1) (h2 : s.SrcOk 1 m2) (h3 : s.ParamOk 2)
    (hd : ¬s.Valid (s.param 2)) : comparison f m1 m2 s = .next (raise s .addressOutOfBounds) := by
  simp only [comparison, src_of_ok h1, src_of_ok h2, dst_of_ok h3, memWrite_of_invalid hd, attempt_ok, attempt_error]

/-- A Write whose source resolves always completes, since the port always accepts (42_io.md R96, R98). -/
theorem execWrite_completes (h : s.SrcOk 0 m1) : execWrite m1 s = .next (advance (outSend s (s.operand 0 m1)) 2) := by
  simp only [execWrite, src_of_ok h, attempt_ok]

end

/-- Settles O36: a parameter cell beyond the tape is a parameter that does not resolve. -/
theorem missingParameterCellFaults : Obligations.MissingParameterCellFaults := fun _ _ _ hk h =>
  ⟨_, exec_of_unresolved fun hr => h (hr.paramOk hk), raise_faultTaken _ _⟩

/-- Settles O37: every source is resolved before the instruction acts, so the condition of a branch does not matter. -/
theorem unresolvedSourceFaults : Obligations.UnresolvedSourceFaults := fun _ _ _ _ hmem h =>
  ⟨_, exec_of_unresolved fun hr => h (hr.1 _ hmem), raise_faultTaken _ _⟩

/-- Settles O38: `arithmetic_overflow`, whose hypotheses leave the destination address free. -/
theorem overflowFaultsBeforeTheDestination : Obligations.OverflowFaultsBeforeTheDestination := by
  intro s m1 m2 m3 h1 h2 h3
  exact ⟨fun hr => ⟨_, arithmetic_overflow h1 h2 h3 hr, raise_faultTaken s _⟩,
    fun hr => ⟨_, arithmetic_overflow h1 h2 h3 hr, raise_faultTaken s _⟩⟩

/-- Settles O39: each of the two shapes, arithmetic and comparison, for its two instructions. -/
theorem badDestinationFaults : Obligations.BadDestinationFaults := by
  intro s m1 m2 m3 h1 h2 h3 hd
  exact ⟨fun hr => ⟨_, arithmetic_bad_destination h1 h2 h3 hr hd, raise_faultTaken s _⟩,
    fun hr => ⟨_, arithmetic_bad_destination h1 h2 h3 hr hd, raise_faultTaken s _⟩,
    ⟨_, comparison_bad_destination h1 h2 h3 hd, raise_faultTaken s _⟩,
    ⟨_, comparison_bad_destination h1 h2 h3 hd, raise_faultTaken s _⟩⟩

end Sys2Proof.Machine

/-! What an instruction does, said once for all nine, and what follows from it for every step. -/

namespace Sys2Proof.Machine

/-- The fault kinds an instruction can raise after its decode: the table of 60_exceptions.md section 1. -/
def CanRaise (i : Instr) (k : FaultKind) : Prop :=
  i ≠ .halt ∧
    (k = .addressOutOfBounds ∨
      (k = .arithmeticOverflow ∧ ∃ m1 m2 m3, i = .add m1 m2 m3 ∨ i = .multiply m1 m2 m3) ∨
      ((k = .exhaustedInput ∨ k = .parseError ∨ k = .ioError) ∧ ∃ m, i = .read m))

/-- Every way an instruction can take `s` to a next state. -/
inductive Effect (s : State) : Instr → State → Prop where
  /-- A fault taken with the input port unused. -/
  | faulted {i : Instr} {k : FaultKind} (hk : CanRaise i k) : Effect s i (raise s k)
  /-- A Read that the port failed, or whose value has no valid destination: the answer is used up (log 13). -/
  | portFaulted {m : Mode} {k : FaultKind} (hk : CanRaise (.read m) k) (ha : InputSource.next s.cfg s.input ≠ .wait) :
      Effect s (.read m) (raise (inRecv s).2 k)
  /-- A held Read. -/
  | held {m : Mode} (ha : InputSource.next s.cfg s.input = .wait) : Effect s (.read m) (inRecv s).2
  /-- A Read that stores a value. -/
  | received {m : Mode} {c : Int} (ha : InputSource.next s.cfg s.input = .value c) (hd : s.DstOk 0) :
      Effect s (.read m)
        (advance { s with mem := s.mem.set (s.param 0).toNat c, input := InputSource.rest s.input } 2)
  /-- Add, Multiply, LessThan or Equals with its result, a Cell of every allowed width. -/
  | stored {i : Instr} {v : Int} (hi : i.arity = 3) (hd : s.DstOk 2) (hv : s.cfg.wf → s.cfg.InRange v) :
      Effect s i (advance { s with mem := s.mem.set (s.param 2).toNat v } 4)
  /-- A Write. -/
  | sent {m : Mode} : Effect s (.write m) (advance (outSend s (s.operand 0 m)) 2)
  /-- A branch that is taken. -/
  | jumped {i : Instr} (hb : BranchTaken i s) : Effect s i (jumpTo s (branchTarget i s))
  /-- A branch that is not taken. -/
  | passed {i : Instr} (hi : i.arity = 2) (hb : ¬BranchTaken i s) : Effect s i (advance s 3)
  /-- A Halt. -/
  | halted : Effect s .halt (enterHalted s)

section

variable {s t : State} {i : Instr} {m1 m2 : Mode}

/-- Every instruction with a parameter can raise AddressOutOfBounds. -/
theorem canRaise_addressOutOfBounds (h : i ≠ .halt) : CanRaise i .addressOutOfBounds := ⟨h, .inl rfl⟩

/-- Read raises what the port names. -/
theorem canRaise_failureKind (m : Mode) (k : InputFailure) : CanRaise (.read m) (failureKind k) := by
  refine ⟨nofun, .inr (.inr ⟨?_, m, rfl⟩)⟩
  cases k <;> simp [failureKind]

/-- An arithmetic instruction whose parameters resolve overflows, misses the tape, or stores its result. -/
theorem arithmetic_effect {op : Int → Int → Int} (hi : i.arity = 3) (ho : CanRaise i .arithmeticOverflow)
    (h1 : s.SrcOk 0 m1) (h2 : s.SrcOk 1 m2) (h3 : s.ParamOk 2) (h : arithmetic op m1 m2 s = .next t) : Effect s i t := by
  by_cases hr : s.cfg.InRange (op (s.operand 0 m1) (s.operand 1 m2))
  · by_cases hd : s.Valid (s.param 2)
    · rw [arithmetic_completes h1 h2 ⟨h3, hd⟩ hr] at h
      cases h
      exact .stored hi ⟨h3, hd⟩ fun _ => hr
    · rw [arithmetic_bad_destination h1 h2 h3 hr hd] at h
      cases h
      exact .faulted (canRaise_addressOutOfBounds ho.1)
  · rw [arithmetic_overflow h1 h2 h3 hr] at h
    cases h
    exact .faulted ho

/-- A comparison whose parameters resolve misses the tape or stores its truth value. -/
theorem comparison_effect {f : Int → Int → Bool} (hi : i.arity = 3) (h1 : s.SrcOk 0 m1) (h2 : s.SrcOk 1 m2)
    (h3 : s.ParamOk 2) (h : comparison f m1 m2 s = .next t) : Effect s i t := by
  by_cases hd : s.Valid (s.param 2)
  · rw [comparison_completes h1 h2 ⟨h3, hd⟩] at h
    cases h
    exact .stored hi ⟨h3, hd⟩ fun hc => truthCell_inRange hc _
  · rw [comparison_bad_destination h1 h2 h3 hd] at h
    cases h
    exact .faulted (canRaise_addressOutOfBounds (by rintro rfl; cases hi))

/-- A branch whose operands resolve is taken or passed. -/
theorem branch_effect {f : Int → Bool} (hi : i.arity = 2) (hf : f (s.operand 0 m1) = true ↔ BranchTaken i s)
    (ht : branchTarget i s = s.operand 1 m2) (h1 : s.SrcOk 0 m1) (h2 : s.SrcOk 1 m2) (h : branch f m1 m2 s = .next t) :
    Effect s i t := by
  rw [branch_completes h1 h2, ← ht] at h
  cases h
  split
  case isTrue hb => exact .jumped (hf.mp hb)
  case isFalse hb => exact .passed hi (mt hf.mpr hb)

/-- What Read does, as an effect. -/
theorem execRead_effect {m : Mode} (h : execRead m s = .next t) : Effect s (.read m) t := by
  have hk : CanRaise (.read m) .addressOutOfBounds := canRaise_addressOutOfBounds nofun
  obtain rfl | ⟨ha, rfl⟩ | ⟨k, ha, rfl⟩ | ⟨c, ha, -, rfl⟩ | ⟨c, ha, hd, rfl⟩ := execRead_next m h
  · exact .faulted hk
  · exact .held ha
  · exact .portFaulted (canRaise_failureKind m k) (by rw [ha]; nofun)
  · exact .portFaulted hk (by rw [ha]; nofun)
  · exact .received ha hd

/-- `Effect` lists everything an instruction can do. -/
theorem exec_effect (h : exec i s = .next t) : Effect s i t := by
  by_cases hres : Resolved i s
  case neg =>
    have hi : i ≠ .halt := by rintro rfl; exact hres resolved_halt
    rw [exec_of_unresolved hres] at h
    cases h
    exact .faulted (canRaise_addressOutOfBounds hi)
  cases i with
  | add a b c | multiply a b c =>
    obtain ⟨h1, h2, h3⟩ := (resolved_three rfl rfl).mp hres
    exact arithmetic_effect rfl ⟨nofun, .inr (.inl ⟨rfl, a, b, c, by simp⟩)⟩ h1 h2 h3 h
  | lessThan | equals =>
    obtain ⟨h1, h2, h3⟩ := (resolved_three rfl rfl).mp hres
    exact comparison_effect rfl h1 h2 h3 h
  | jumpIfTrue | jumpIfFalse =>
    obtain ⟨h1, h2⟩ := (resolved_two rfl rfl).mp hres
    exact branch_effect rfl (by simp [BranchTaken]) rfl h1 h2 h
  | read m => exact execRead_effect h
  | write m =>
    rw [exec, execWrite_completes (resolved_write.mp hres)] at h
    cases h
    exact .sent
  | halt => cases h; exact .halted

/-- What a step of a `Running` core can do: the fetch or the decode faults, or the decoded instruction has its effect. -/
theorem step_effect (h : step s = .next t) :
    s.status = .running ∧
      ((∃ k, t = raise s k ∧ ∀ i, ¬(s.Valid s.ip ∧ decode (s.cell s.ip) = .ok i)) ∨
        ∃ i, s.Valid s.ip ∧ decode (s.cell s.ip) = .ok i ∧ Effect s i t) := by
  obtain ⟨hr, ⟨hv, rfl⟩ | ⟨-, k, hk, rfl⟩ | ⟨hv, i, hi, he⟩⟩ := step_next h
  · exact ⟨hr, .inl ⟨_, rfl, fun _ hh => hv hh.1⟩⟩
  · exact ⟨hr, .inl ⟨k, rfl, fun _ hh => nomatch hk.symm.trans hh.2⟩⟩
  · exact ⟨hr, .inr ⟨i, hv, hi, exec_effect he⟩⟩

end

end Sys2Proof.Machine

/-! What every step keeps: `LEN`, the fault report (10_state.md R15, R17) and the invariant. -/

namespace Sys2Proof.Machine

section

variable {s t : State} {i : Instr}

/-- No instruction changes `LEN` or the width. -/
theorem Effect.len_cfg (h : Effect s i t) : t.mem.len = s.mem.len ∧ t.cfg = s.cfg := by
  cases h <;> exact ⟨rfl, rfl⟩

/-- A `Running` state has no fault report (10_state.md R15). -/
theorem State.ReportOk.empty (h : s.ReportOk) (hr : s.status = .running) : s.faultKind = none ∧ s.faultIp = none := by
  obtain ⟨hf, -⟩ | ⟨-, he⟩ := h
  · exact nomatch hr.symm.trans hf
  · exact he

/-- Fault entry makes the report R15 asks for. -/
theorem reportOk_raise (s : State) (k : FaultKind) : (raise s k).ReportOk := .inl ⟨rfl, rfl, rfl⟩

/-- A state that is not `Faulted` and has the empty report of a `Running` one. -/
theorem reportOk_of_empty (h : s.ReportOk) (hr : s.status = .running) (ht : t.status ≠ .faulted)
    (hk : t.faultKind = s.faultKind) (hip : t.faultIp = s.faultIp) : t.ReportOk :=
  .inr ⟨ht, hk.trans (h.empty hr).1, hip.trans (h.empty hr).2⟩

/-- How an instruction leaves the status: a fault, with `ip` where it was, or a Halt, or `Running`; the report changes by a
fault alone. -/
theorem Effect.status_cases (hr : s.status = .running) (h : Effect s i t) :
    (t.status = .faulted ∧ t.ip = s.ip ∧ t.faultIp = some s.ip ∧ ∃ k, t.faultKind = some k ∧ CanRaise i k) ∨
      ((t.status = .halted ∧ i = .halt ∨ t.status = .running ∧ i ≠ .halt) ∧
        t.faultKind = s.faultKind ∧ t.faultIp = s.faultIp) := by
  cases h with
  | faulted hk | portFaulted hk => exact .inl ⟨rfl, rfl, rfl, _, rfl, hk⟩
  | halted => exact .inr ⟨.inl ⟨rfl, rfl⟩, rfl, rfl⟩
  | held | received | sent => exact .inr ⟨.inr ⟨hr, nofun⟩, rfl, rfl⟩
  | stored hi | passed hi => exact .inr ⟨.inr ⟨hr, by rintro rfl; cases hi⟩, rfl, rfl⟩
  | jumped hb => exact .inr ⟨.inr ⟨hr, by rintro rfl; exact hb⟩, rfl, rfl⟩

/-- An instruction keeps the fault report as R15 says. -/
theorem Effect.reportOk (hr : s.status = .running) (hok : s.ReportOk) (h : Effect s i t) : t.ReportOk := by
  obtain ⟨hf, hip, hfip, k, hk, -⟩ | ⟨hst, hk, hip⟩ := h.status_cases hr
  · exact .inl ⟨hf, by rw [hk]; rfl, by rw [hfip, hip]⟩
  · refine reportOk_of_empty hok hr ?_ hk hip
    rcases hst with ⟨hst, -⟩ | ⟨hst, -⟩ <;> rw [hst] <;> decide

/-- A fault keeps the invariant. -/
theorem inv_raise (h : s.Inv) (k : FaultKind) : (raise s k).Inv := by
  obtain ⟨hc, hm, hl, hcells, hip, hout, hin, -⟩ := h
  exact ⟨hc, hm, hl, hcells, hip, hout, hin, reportOk_raise s k⟩

/-- A request to the port keeps the invariant: the answers still to come obey the law. -/
theorem inv_inRecv (h : s.Inv) : (inRecv s).2.Inv := by
  obtain ⟨hc, hm, hl, hcells, hip, hout, hin, hok⟩ := h
  exact ⟨hc, hm, hl, hcells, hip, hout, inputSource_rest_wf hin, hok⟩

/-- The store of a Cell inside the tape keeps the invariant. -/
theorem inv_set (h : s.Inv) {d v : Int} (hd : s.Valid d) (hv : s.cfg.InRange v) :
    State.Inv { s with mem := s.mem.set d.toNat v } := by
  obtain ⟨hc, hm, hl, hcells, hip, hout, hin, hok⟩ := h
  refine ⟨hc, set_wf hm (by have := hd.1; have := hd.2; omega) v, hl, fun p hp => ?_, hip, hout, hin, hok⟩
  rcases mem_store hp with hp | ⟨rfl, -⟩
  · exact hcells p hp
  · exact hv

/-- The sending of a Cell keeps the invariant. -/
theorem inv_outSend (h : s.Inv) {v : Int} (hv : s.cfg.InRange v) : (outSend s v).Inv := by
  obtain ⟨hc, hm, hl, hcells, hip, hout, hin, hok⟩ := h
  refine ⟨hc, hm, hl, hcells, hip, fun w hw => ?_, hin, hok⟩
  rcases List.mem_append.mp hw with hw | hw
  · exact hout w hw
  · exact List.mem_singleton.mp hw ▸ hv

/-- A jump to a Cell keeps the invariant, on the tape or not (D9). -/
theorem inv_jumpTo (h : s.Inv) (hr : s.status = .running) {v : Int} (hv : s.cfg.InRange v) : (jumpTo s v).Inv := by
  obtain ⟨hc, hm, hl, hcells, -, hout, hin, hok⟩ := h
  exact ⟨hc, hm, hl, hcells, hv, hout, hin, reportOk_of_empty hok hr (hr ▸ nofun) rfl rfl⟩

/-- From an `ip` on the tape the advance by an instruction's length stays a Cell, by the bound on `LEN` (D10). -/
theorem inv_advance (h : s.Inv) (hr : s.status = .running) (hv : s.Valid s.ip) {n : Nat} (hn : n ≤ 4) : (advance s n).Inv := by
  obtain ⟨hc, hm, hl, hcells, hip, hout, hin, hok⟩ := h
  have hl' : (s.mem.len : Int) ≤ s.cfg.cmax - 3 := hl
  have hip' : s.cfg.InRange (s.ip + (n : Int)) := ⟨by have := hip.1; omega, by have := hv.2; omega⟩
  exact ⟨hc, hm, hl, hcells, hip', hout, hin, reportOk_of_empty hok hr (hr ▸ nofun) rfl rfl⟩

/-- A Halt keeps the invariant. -/
theorem inv_enterHalted (h : s.Inv) (hr : s.status = .running) : (enterHalted s).Inv := by
  obtain ⟨hc, hm, hl, hcells, hip, hout, hin, hok⟩ := h
  exact ⟨hc, hm, hl, hcells, hip, hout, hin, reportOk_of_empty hok hr nofun rfl rfl⟩

/-- A branch's target is a Cell, and so is what other instructions have in its place, `ip`. -/
theorem branchTarget_inRange (h : s.Inv) (i : Instr) : s.cfg.InRange (branchTarget i s) := by
  cases i with
  | jumpIfTrue _ m2 | jumpIfFalse _ m2 => exact operand_inRange h 1 m2
  | add | multiply | read | write | lessThan | equals | halt =>
    obtain ⟨-, -, -, -, hip, -⟩ := h
    exact hip

/-- A value that the port gives under its law is a Cell (42_io.md R95). -/
theorem next_value_inRange (h : s.Inv) {c : Int} (ha : InputSource.next s.cfg s.input = .value c) : s.cfg.InRange c := by
  obtain ⟨-, -, -, -, -, -, hin, -⟩ := h
  have hwf := inputSource_next_wf hin
  rw [ha] at hwf
  exact of_decide_eq_true hwf

/-- An instruction at a valid `ip` keeps the invariant. -/
theorem Effect.inv (hr : s.status = .running) (hv : s.Valid s.ip) (hs : s.Inv) (h : Effect s i t) : t.Inv := by
  cases h with
  | faulted => exact inv_raise hs _
  | portFaulted => exact inv_raise (inv_inRecv hs) _
  | held => exact inv_inRecv hs
  | received ha hd =>
    exact inv_advance (inv_set (inv_inRecv hs) (d := s.param 0) hd.2 (next_value_inRange hs ha)) hr hv (by decide)
  | stored _ hd hc => exact inv_advance (inv_set hs hd.2 (hc hs.1)) hr hv (by decide)
  | sent => exact inv_advance (inv_outSend hs (operand_inRange hs 0 _)) hr hv (by decide)
  | jumped => exact inv_jumpTo hs hr (branchTarget_inRange hs i)
  | passed => exact inv_advance hs hr hv (by decide)
  | halted => exact inv_enterHalted hs hr

/-- Every step keeps the invariant. -/
theorem step_inv (hs : s.Inv) (h : step s = .next t) : t.Inv := by
  obtain ⟨hr, ⟨k, rfl, -⟩ | ⟨i, hv, -, he⟩⟩ := step_effect h
  · exact inv_raise hs k
  · exact he.inv hr hv hs

/-- The tape of an allowed image, with a source that obeys the law, meets the invariant after reset. -/
theorem resetWith_inv {c : Config} {image : List Int} {q : InputSource} (hc : c.wf) (hi : imageWf c image) (hq : q.wf c) :
    (resetWith c image q).Inv := by
  refine ⟨hc, ofImage_wf image, hi.1, fun p hp => ?_, zero_inRange hc, nofun, hq, .inr ⟨nofun, rfl, rfl⟩⟩
  obtain ⟨-, -, hmem, -⟩ := mem_entries hp
  exact hi.2 p.2 hmem

end

/-- Settles O4: `step_inv`, from what each effect keeps. -/
theorem everyStepKeepsTheInvariant : Obligations.EveryStepKeepsTheInvariant := fun _ _ => step_inv

/-- Settles O3: the host's check is the three conditions, under which the reset meets the invariant. -/
theorem hostResetGivesInvariantStates : Obligations.HostResetGivesInvariantStates := by
  intro c image q
  by_cases h : c.wf ∧ imageWf c image ∧ q.wf c
  · have hreset : hostReset c image q = some (resetWith c image q) := if_pos h
    refine ⟨iff_of_true ⟨_, hreset⟩ h, fun s hs => ?_⟩
    obtain rfl := Option.some.inj (hreset.symm.trans hs)
    exact ⟨rfl, resetWith_inv h.1 h.2.1 h.2.2⟩
  · have hnone : hostReset c image q = none := if_neg h
    rw [hnone]
    exact ⟨iff_of_false nofun h, nofun⟩

/-- Settles O2: `State.reset` is the reset of allowed arguments, the default width, no cell and no value. -/
theorem resetStateMeetsTheInvariant : Obligations.ResetStateMeetsTheInvariant :=
  show State.reset.Inv from resetWith_default ▸ resetWith_inv (by decide) (by decide) (by decide)

/-- Settles O8: no fault and no effect touches `LEN` or the width. -/
theorem lengthAndWidthNeverChange : Obligations.LengthAndWidthNeverChange := by
  intro s t h
  obtain ⟨-, ⟨k, rfl, -⟩ | ⟨i, -, -, he⟩⟩ := step_effect h
  · exact ⟨rfl, rfl⟩
  · exact he.len_cfg

end Sys2Proof.Machine

/-! The status, the tape, `ip` and the fault kinds, read off the effects of a step (10_state.md R12, R14;
40_execution_loop.md R78; 60_exceptions.md sections 1 and 3). -/

namespace Sys2Proof.Machine

section

variable {s t : State} {i : Instr}

/-- No instruction with another number of parameters than two branches (43_branch.md R104). -/
theorem not_branchTaken_of_arity (h : i.arity ≠ 2) : ¬BranchTaken i s := by
  cases i with
  | jumpIfTrue | jumpIfFalse => exact absurd rfl h
  | add | multiply | read | write | lessThan | equals | halt => exact id

/-- A Halt has no parameter. -/
theorem ne_halt_of_arity (h : 2 ≤ i.arity) : i ≠ .halt := by
  rintro rfl
  exact absurd h (by decide)

/-- A Read has one parameter. -/
theorem ne_read_of_arity (h : 2 ≤ i.arity) (m : Mode) : i ≠ .read m := by
  rintro rfl
  exact absurd h (by decide : ¬2 ≤ 1)

/-- Parameter 3 is a destination wherever there is one (30_encoding.md R53). -/
theorem destParam_of_arity (h : i.arity = 3) : destParam i = some 2 := by
  cases i with
  | add | multiply | lessThan | equals => rfl
  | read | write | jumpIfTrue | jumpIfFalse | halt => cases h

/-- A store is seen at its address and at no other, so a cell it changed is the one at its address. -/
theorem eq_of_cell_changed {d v a : Int} (ht : t.mem = s.mem.set d.toNat v) (hwf : s.mem.wf) (hd : s.Valid d)
    (ha : s.Valid a) (hne : t.cell a ≠ s.cell a) : a = d := by
  obtain ⟨-, -, hother⟩ := oneCellWritten_set hwf hd v t ht
  exact of_not_not fun h => hne (hother a ha h)

/-- The frame of the tape for one instruction (40_execution_loop.md R78): a changed cell is the destination's, and the
instruction completed. -/
theorem Effect.cell_changed (hr : s.status = .running) (hwf : s.mem.wf) (h : Effect s i t) {a : Int} (ha : s.Valid a)
    (hne : t.cell a ≠ s.cell a) : t.status = .running ∧ ∃ k, destParam i = some k ∧ a = s.param k := by
  cases h with
  | faulted | portFaulted | held | sent | jumped | passed | halted => exact absurd rfl hne
  | received _ hd => exact ⟨hr, 0, rfl, eq_of_cell_changed rfl hwf hd.2 ha hne⟩
  | stored hi hd => exact ⟨hr, 2, destParam_of_arity hi, eq_of_cell_changed rfl hwf hd.2 ha hne⟩

/-- A faulting instruction changes nothing but the status and the report; a Read alone may have used the port up to a failure
or a value (60_exceptions.md section 3). -/
theorem Effect.precise (hr : s.status = .running) (h : Effect s i t) (hf : t.status = .faulted) :
    t.mem = s.mem ∧ t.out = s.out ∧ t.ip = s.ip ∧ t.faultIp = some s.ip ∧ t.cfg = s.cfg ∧
      (t.input = s.input ∨ ∃ m a, i = .read m ∧ SourceAnswers s.cfg s.input a t.input ∧ a ≠ .wait) := by
  cases h with
  | faulted => exact ⟨rfl, rfl, rfl, rfl, rfl, .inl rfl⟩
  | portFaulted _ ha =>
    exact ⟨rfl, rfl, rfl, rfl, rfl, .inr ⟨_, _, rfl, sourceAnswers_iff.mpr ⟨rfl, rfl⟩, ha⟩⟩
  | held | received | stored | sent | jumped | passed => exact nomatch hr.symm.trans hf
  | halted => exact nomatch hf

/-- The status a step leaves, with what it says of the instruction at `ip` and of the report (10_state.md R14, R15). -/
theorem step_status (h : step s = .next t) :
    (t.status = .halted ↔ s.Valid s.ip ∧ decode (s.cell s.ip) = .ok .halt) ∧
      (t.status = .faulted → t.faultIp = some s.ip) ∧ (s.ReportOk → t.ReportOk) := by
  obtain ⟨hr, ⟨k, rfl, hno⟩ | ⟨i, hv, hi, he⟩⟩ := step_effect h
  · exact ⟨iff_of_false nofun (hno .halt), fun _ => rfl, fun _ => reportOk_raise s k⟩
  · refine ⟨?_, fun hf => ?_, fun hok => he.reportOk hr hok⟩
    · have hhalt : (s.Valid s.ip ∧ decode (s.cell s.ip) = .ok .halt) ↔ i = .halt := by
        rw [hi, Except.ok.injEq]
        exact and_iff_right hv
      rw [hhalt]
      obtain ⟨hf, -, -, k, -, hk⟩ | ⟨⟨hst, hih⟩ | ⟨hst, hih⟩, -⟩ := he.status_cases hr
      · exact iff_of_false (by rw [hf]; decide) hk.1
      · exact iff_of_true hst hih
      · exact iff_of_false (by rw [hst]; decide) hih
    · obtain ⟨-, -, -, hfip, -⟩ := he.precise hr hf
      exact hfip

/-- The fault report says whether the run is `Faulted` (10_state.md R15). -/
theorem State.ReportOk.faulted_iff (h : s.ReportOk) :
    (s.status = .faulted ↔ s.faultKind.isSome = true) ∧ (s.status = .faulted ↔ s.faultIp.isSome = true) := by
  obtain ⟨hf, hk, hip⟩ | ⟨hf, hk, hip⟩ := h
  · exact ⟨iff_of_true hf hk, iff_of_true hf (by rw [hip]; rfl)⟩
  · exact ⟨iff_of_false hf (by rw [hk]; nofun), iff_of_false hf (by rw [hip]; nofun)⟩

end

/-- Settles O7: a Halt is the only way to `Halted`, and the report that R15 asks of the next state says the rest. -/
theorem statusChangesOnlyByHaltOrFault : Obligations.StatusChangesOnlyByHaltOrFault := by
  intro s t hok h
  obtain ⟨hhalt, hfip, hkeep⟩ := step_status h
  have hok' : t.ReportOk := hkeep hok
  obtain ⟨hkind, hip⟩ := hok'.faulted_iff
  exact ⟨hhalt, hkind, ⟨hfip, fun e => hip.mpr (by rw [e]; rfl)⟩, hok'.empty⟩

/-- Settles O11: a step that ends in a fault of the fetch or the decode changes no cell; else the instruction's frame. -/
theorem tapeChangesOnlyAtTheDestination : Obligations.TapeChangesOnlyAtTheDestination := by
  intro s t hwf h a ha hne
  obtain ⟨hr, ⟨k, rfl, -⟩ | ⟨i, -, hi, he⟩⟩ := step_effect h
  · exact absurd rfl hne
  · obtain ⟨hrun, k, hk, hak⟩ := he.cell_changed hr hwf ha hne
    exact ⟨hrun, i, k, hi, hk, hak⟩

/-- Settles O40: fault entry alone where the fetch or the decode faults; else the instruction's own precision. -/
theorem faultsArePrecise : Obligations.FaultsArePrecise := by
  intro s t h hf
  obtain ⟨hr, ⟨k, rfl, -⟩ | ⟨i, -, hi, he⟩⟩ := step_effect h
  · exact ⟨rfl, rfl, rfl, rfl, rfl, .inl rfl⟩
  · obtain ⟨hmem, hout, hip, hfip, hcfg, hin⟩ := he.precise hr hf
    exact ⟨hmem, hout, hip, hfip, hcfg, hin.imp_right fun ⟨m, a, hm, ha⟩ => ⟨m, a, hm ▸ hi, ha⟩⟩

/-- Settles O41: each effect carries the kinds of its instruction, and one that is no fault leaves the report empty. -/
theorem instructionsRaiseOnlyTheirKinds : Obligations.InstructionsRaiseOnlyTheirKinds := by
  intro i s t k hr hok h hk
  obtain ⟨-, -, -, k', hk', hcan⟩ | ⟨-, hsame, -⟩ := (exec_effect h).status_cases hr
  · rw [hk', Option.some.injEq] at hk
    exact hk ▸ hcan
  · exact nomatch (hk.symm.trans hsame).trans (hok.empty hr).1

/-- Settles O42: the line of the table that each effect is on. -/
theorem ipAdvancesByTheTable : Obligations.IpAdvancesByTheTable := by
  intro i s t hr h
  have hlen (n : Nat) : s.ip + ((1 + n : Nat) : Int) = s.ip + 1 + (n : Int) := by omega
  cases exec_effect h with
  | faulted | portFaulted => exact .inl ⟨rfl, rfl⟩
  | halted => exact .inr (.inl ⟨rfl, rfl, rfl⟩)
  | held ha => exact .inr (.inr (.inl ⟨⟨_, _, rfl, sourceAnswers_iff.mpr ⟨ha, rfl⟩⟩, hr, rfl⟩))
  | jumped hb => exact .inr (.inr (.inr (.inl ⟨hb, hr, rfl⟩)))
  | received ha =>
    have hheld (q : InputSource) : ¬SourceAnswers s.cfg s.input .wait q := fun hq =>
      nomatch ha.symm.trans (sourceAnswers_iff.mp hq).1
    exact .inr (.inr (.inr (.inr ⟨id, nofun, fun ⟨_, q, _, hq⟩ => hheld q hq, hr, hlen 1⟩)))
  | sent => exact .inr (.inr (.inr (.inr ⟨id, nofun, nofun, hr, hlen 1⟩)))
  | stored hi =>
    have h2 : 2 ≤ i.arity := by omega
    exact .inr (.inr (.inr (.inr ⟨not_branchTaken_of_arity (by omega), ne_halt_of_arity h2,
      fun ⟨m, _, hm, _⟩ => ne_read_of_arity h2 m hm, hr, hi ▸ hlen 3⟩)))
  | passed hi hb =>
    have h2 : 2 ≤ i.arity := by omega
    exact .inr (.inr (.inr (.inr ⟨hb, ne_halt_of_arity h2, fun ⟨m, _, hm, _⟩ => ne_read_of_arity h2 m hm, hr,
      hi ▸ hlen 2⟩)))

/-- Settles O6: a next state comes from a `Running` one alone, which always has one. -/
theorem stepIsEnabledExactlyWhileRunning : Obligations.StepIsEnabledExactlyWhileRunning := by
  intro s
  refine ⟨⟨fun ⟨_, h⟩ => (step_next h).1, step_of_running⟩, fun h => ?_, fun h => ?_⟩
  · simp only [step, h]
  · simp only [step, h]

end Sys2Proof.Machine

/-! Decoding and encoding (30_encoding.md sections 2, 5 and 7). -/

namespace Sys2Proof

/-- Two low digits and one mode digit of a number, together its remainder. -/
theorem low_three_iff {v op d1 : Nat} (ho : op < 100) (h1 : d1 ≤ 1) :
    v % 100 = op ∧ dig v 2 = d1 ↔ v % 1000 = op + 100 * d1 := by
  unfold dig
  omega

/-- Two low digits and two mode digits. -/
theorem low_four_iff {v op d1 d2 : Nat} (ho : op < 100) (h1 : d1 ≤ 1) (h2 : d2 ≤ 1) :
    v % 100 = op ∧ dig v 2 = d1 ∧ dig v 3 = d2 ↔ v % 10000 = op + 100 * d1 + 1000 * d2 := by
  unfold dig
  omega

/-- Two low digits and three mode digits. -/
theorem low_five_iff {v op d1 d2 d3 : Nat} (ho : op < 100) (h1 : d1 ≤ 1) (h2 : d2 ≤ 1) (h3 : d3 ≤ 1) :
    v % 100 = op ∧ dig v 2 = d1 ∧ dig v 3 = d2 ∧ dig v 4 = d3 ↔
      v % 100000 = op + 100 * d1 + 1000 * d2 + 10000 * d3 := by
  unfold dig
  omega

/-- A number decodes to the instruction whose cell its digits up to the last mode digit are (30_encoding.md R53, R60). -/
theorem decodeNat_ok_iff {v : Nat} {i : Instr} :
    decodeNat v = .ok i ↔ v % 10 ^ (2 + i.arity) = (encode i).toNat := by
  constructor
  · intro h
    unfold decodeNat at h
    split at h
    case h_1 hop | h_2 hop | h_7 hop | h_8 hop =>
      obtain ⟨m1, m2, m3, h1, h2, h3, rfl⟩ := decodeF3_ok_iff.mp h
      exact (low_five_iff (by decide) (mode_digit_le m1) (mode_digit_le m2) (mode_digit_le m3)).mp ⟨hop, h1, h2, h3⟩
    case h_3 hop | h_4 hop =>
      obtain ⟨m1, h1, rfl⟩ := decodeF1_ok_iff.mp h
      exact (low_three_iff (by decide) (mode_digit_le m1)).mp ⟨hop, h1⟩
    case h_5 hop | h_6 hop =>
      obtain ⟨m1, m2, h1, h2, rfl⟩ := decodeF2_ok_iff.mp h
      exact (low_four_iff (by decide) (mode_digit_le m1) (mode_digit_le m2)).mp ⟨hop, h1, h2⟩
    case h_9 hop => cases h; exact hop
    case h_10 => exact nomatch h
  · intro h
    cases i with
    | add m1 m2 m3 | multiply m1 m2 m3 | lessThan m1 m2 m3 | equals m1 m2 m3 =>
      obtain ⟨hop, h1, h2, h3⟩ :=
        (low_five_iff (by decide) (mode_digit_le m1) (mode_digit_le m2) (mode_digit_le m3)).mpr h
      rw [decodeNat, hop]
      exact decodeF3_ok_iff.mpr ⟨m1, m2, m3, h1, h2, h3, rfl⟩
    | read m1 | write m1 =>
      obtain ⟨hop, h1⟩ := (low_three_iff (by decide) (mode_digit_le m1)).mpr h
      rw [decodeNat, hop]
      exact decodeF1_ok_iff.mpr ⟨m1, h1, rfl⟩
    | jumpIfTrue m1 m2 | jumpIfFalse m1 m2 =>
      obtain ⟨hop, h1, h2⟩ := (low_four_iff (by decide) (mode_digit_le m1) (mode_digit_le m2)).mpr h
      rw [decodeNat, hop]
      exact decodeF2_ok_iff.mpr ⟨m1, m2, h1, h2, rfl⟩
    | halt =>
      have hop : v % 100 = 99 := h
      rw [decodeNat, hop]
      rfl

/-- An instruction cell has no digit above the last mode digit (30_encoding.md R64). -/
theorem encode_eq_natCast (i : Instr) : ∃ e : Nat, encode i = (e : Int) ∧ e < 10 ^ (2 + i.arity) := by
  cases i with
  | add m1 m2 m3 | multiply m1 m2 m3 | lessThan m1 m2 m3 | equals m1 m2 m3 =>
    have h1 := mode_digit_le m1
    have h2 := mode_digit_le m2
    have h3 := mode_digit_le m3
    exact ⟨_, rfl, by simp only [Instr.arity]; omega⟩
  | jumpIfTrue m1 m2 | jumpIfFalse m1 m2 =>
    have h1 := mode_digit_le m1
    have h2 := mode_digit_le m2
    exact ⟨_, rfl, by simp only [Instr.arity]; omega⟩
  | read m1 | write m1 =>
    have h1 := mode_digit_le m1
    exact ⟨_, rfl, by simp only [Instr.arity]; omega⟩
  | halt => exact ⟨99, rfl, by decide⟩

/-- A negative cell has no opcode (30_encoding.md R55). -/
theorem decode_of_neg {v : Int} (h : v < 0) : decode v = .error .unknownOpcode := if_pos h

/-- A cell that decodes is not negative (30_encoding.md R55). -/
theorem decode_ok_nonneg {v : Int} {i : Instr} (h : decode v = .ok i) : 0 ≤ v := by
  by_contra hv
  rw [decode_of_neg (not_le.mp hv)] at h
  exact nomatch h

/-- Settles O13: the remainder by `10 ^ (2 + arity)` is the instruction's own cell, and the quotient the surplus digits. -/
theorem decodeAndEncodeAgree : Obligations.DecodeAndEncodeAgree := by
  intro v i
  obtain ⟨e, he, hlt⟩ := encode_eq_natCast i
  constructor
  · intro h
    lift v to Nat using decode_ok_nonneg h
    rw [decode_natCast, decodeNat_ok_iff, he, Int.toNat_natCast] at h
    refine ⟨v / 10 ^ (2 + i.arity), ?_⟩
    rw [he, ← h]
    exact_mod_cast (Nat.mod_add_div' v (10 ^ (2 + i.arity))).symm
  · rintro ⟨n, rfl⟩
    have hcell : encode i + (n : Int) * 10 ^ (2 + i.arity) = ((e + n * 10 ^ (2 + i.arity) : Nat) : Int) := by
      rw [he]
      push_cast
      rfl
    rw [hcell, decode_natCast, decodeNat_ok_iff, he, Int.toNat_natCast, Nat.add_mul_mod_self_right, Nat.mod_eq_of_lt hlt]

/-- Settles O14: each cell is run through the decoder. -/
theorem decodesCellsWrittenFromTheSpec : Obligations.DecodesCellsWrittenFromTheSpec := by
  unfold Obligations.DecodesCellsWrittenFromTheSpec
  decide

/-! The mode digits of a cell with a legal opcode (30_encoding.md R58 to R60). -/

/-- A digit is a mode's exactly when it is 0 or 1 (30_encoding.md R54). -/
theorem digit_le_one_iff {d : Nat} : d ≤ 1 ↔ ∃ m : Mode, d = m.digit := by
  constructor
  · intro h
    obtain rfl | rfl : d = 0 ∨ d = 1 := by omega
    · exact ⟨.position, rfl⟩
    · exact ⟨.immediate, rfl⟩
  · rintro ⟨m, rfl⟩
    exact mode_digit_le m

/-- The first `n` mode digits of `v` are all 0 or 1. -/
def ModeDigitsLegal (v n : Nat) : Prop := ∀ k < n, dig v (2 + k) ≤ 1

/-- The first `n` mode digits alone decide between an instruction of arity `n` and InvalidModeDigit. -/
def ModeDigitsDecide (v n : Nat) (r : Except FaultKind Instr) : Prop :=
  (ModeDigitsLegal v n ∧ ∃ i, r = .ok i ∧ i.arity = n) ∨ (¬ModeDigitsLegal v n ∧ r = .error .invalidModeDigit)

/-- A mode digit that is not legal is 2 to 9 (30_encoding.md R58). -/
theorem not_modeDigitsLegal_iff {v n : Nat} : ¬ModeDigitsLegal v n ↔ ∃ k < n, 2 ≤ dig v (2 + k) := by
  simp only [ModeDigitsLegal, not_forall, not_le, exists_prop]
  rfl

/-- A decoder decides by the mode digits when it answers exactly where they are legal, with an instruction of that arity, and
raises InvalidModeDigit alone. -/
theorem modeDigitsDecide_of {v n : Nat} {r : Except FaultKind Instr} (hok : ModeDigitsLegal v n → ∃ i, r = .ok i)
    (hlegal : ∀ i, r = .ok i → ModeDigitsLegal v n ∧ i.arity = n) (herr : ∀ k, r = .error k → k = .invalidModeDigit) :
    ModeDigitsDecide v n r := by
  cases r with
  | ok i =>
    obtain ⟨hl, ha⟩ := hlegal i rfl
    exact .inl ⟨hl, i, rfl, ha⟩
  | error k =>
    obtain rfl := herr k rfl
    exact .inr ⟨fun hl => (hok hl).elim nofun, rfl⟩

/-- Format F1 looks at one mode digit. -/
theorem decodeF1_modeDigits {mk : Mode → Instr} (hmk : ∀ m1, (mk m1).arity = 1) (v : Nat) :
    ModeDigitsDecide v 1 (decodeF1 mk v) := by
  refine modeDigitsDecide_of (fun hl => ?_) (fun i hi => ?_) fun _ => decodeF1_error
  · obtain ⟨m1, h1⟩ := digit_le_one_iff.mp (hl 0 (by decide))
    exact ⟨_, decodeF1_ok_iff.mpr ⟨m1, h1, rfl⟩⟩
  · obtain ⟨m1, h1, rfl⟩ := decodeF1_ok_iff.mp hi
    refine ⟨fun k hk => digit_le_one_iff.mpr ?_, hmk m1⟩
    match k, hk with
    | 0, _ => exact ⟨m1, h1⟩

/-- Format F2 looks at two. -/
theorem decodeF2_modeDigits {mk : Mode → Mode → Instr} (hmk : ∀ m1 m2, (mk m1 m2).arity = 2) (v : Nat) :
    ModeDigitsDecide v 2 (decodeF2 mk v) := by
  refine modeDigitsDecide_of (fun hl => ?_) (fun i hi => ?_) fun _ => decodeF2_error
  · obtain ⟨m1, h1⟩ := digit_le_one_iff.mp (hl 0 (by decide))
    obtain ⟨m2, h2⟩ := digit_le_one_iff.mp (hl 1 (by decide))
    exact ⟨_, decodeF2_ok_iff.mpr ⟨m1, m2, h1, h2, rfl⟩⟩
  · obtain ⟨m1, m2, h1, h2, rfl⟩ := decodeF2_ok_iff.mp hi
    refine ⟨fun k hk => digit_le_one_iff.mpr ?_, hmk m1 m2⟩
    match k, hk with
    | 0, _ => exact ⟨m1, h1⟩
    | 1, _ => exact ⟨m2, h2⟩

/-- Format F3 looks at three, the destination's included (30_encoding.md R59). -/
theorem decodeF3_modeDigits {mk : Mode → Mode → Mode → Instr} (hmk : ∀ m1 m2 m3, (mk m1 m2 m3).arity = 3) (v : Nat) :
    ModeDigitsDecide v 3 (decodeF3 mk v) := by
  refine modeDigitsDecide_of (fun hl => ?_) (fun i hi => ?_) fun _ => decodeF3_error
  · obtain ⟨m1, h1⟩ := digit_le_one_iff.mp (hl 0 (by decide))
    obtain ⟨m2, h2⟩ := digit_le_one_iff.mp (hl 1 (by decide))
    obtain ⟨m3, h3⟩ := digit_le_one_iff.mp (hl 2 (by decide))
    exact ⟨_, decodeF3_ok_iff.mpr ⟨m1, m2, m3, h1, h2, h3, rfl⟩⟩
  · obtain ⟨m1, m2, m3, h1, h2, h3, rfl⟩ := decodeF3_ok_iff.mp hi
    refine ⟨fun k hk => digit_le_one_iff.mpr ?_, hmk m1 m2 m3⟩
    match k, hk with
    | 0, _ => exact ⟨m1, h1⟩
    | 1, _ => exact ⟨m2, h2⟩
    | 2, _ => exact ⟨m3, h3⟩

/-- The legal opcodes, each with its number of mode digits (30_encoding.md R51, R53). -/
theorem decodeNat_modeDigits {v n : Nat}
    (h : (v % 100, n) ∈ [(1, 3), (2, 3), (3, 1), (4, 1), (5, 2), (6, 2), (7, 3), (8, 3), (99, 0)]) :
    ModeDigitsDecide v n (decodeNat v) := by
  unfold decodeNat
  split
  case h_1 hop | h_2 hop | h_7 hop | h_8 hop =>
    obtain rfl : n = 3 := by simpa [hop] using h
    exact decodeF3_modeDigits (fun _ _ _ => rfl) v
  case h_3 hop | h_4 hop =>
    obtain rfl : n = 1 := by simpa [hop] using h
    exact decodeF1_modeDigits (fun _ => rfl) v
  case h_5 hop | h_6 hop =>
    obtain rfl : n = 2 := by simpa [hop] using h
    exact decodeF2_modeDigits (fun _ _ => rfl) v
  case h_9 hop =>
    obtain rfl : n = 0 := by simpa [hop] using h
    exact .inl ⟨nofun, .halt, rfl, rfl⟩
  case h_10 =>
    simp only [List.mem_cons, Prod.mk.injEq, List.not_mem_nil, or_false] at h
    tauto

/-- Settles O16: either the digits are legal and the cell decodes, or one is 2 to 9 and it does not. -/
theorem illegalModeDigitFaults : Obligations.IllegalModeDigitFaults := by
  intro v opcode n hmem hop
  subst hop
  rw [decode_natCast]
  obtain ⟨hl, i, hi, ha⟩ | ⟨hl, he⟩ := decodeNat_modeDigits hmem
  · refine ⟨iff_of_false (by rw [hi]; nofun) fun hbad => ?_, fun _ => ⟨i, hi, ha⟩⟩
    exact not_modeDigitsLegal_iff.mpr hbad hl
  · exact ⟨iff_of_true he (not_modeDigitsLegal_iff.mp hl), fun hlegal => absurd hlegal hl⟩

/-! The canonical instruction cells (30_encoding.md section 7). -/

/-- The canonical instructions, in the order of the table of 30_encoding.md R63. -/
def canonicalInstrs : List Instr :=
  let modes := [Mode.position, .immediate]
  let two (mk : Mode → Mode → Instr) := modes.flatMap fun m2 => modes.map fun m1 => mk m1 m2
  two (.add · · .position) ++ two (.multiply · · .position) ++ [.read .position] ++ modes.map .write ++
    two .jumpIfTrue ++ two .jumpIfFalse ++ two (.lessThan · · .position) ++ two (.equals · · .position) ++ [.halt]

/-- The list holds the canonical instructions and no other. -/
theorem mem_canonicalInstrs {i : Instr} : i ∈ canonicalInstrs ↔ i.canonical = true := by
  cases i with
  | add m1 m2 m3 | multiply m1 m2 m3 | lessThan m1 m2 m3 | equals m1 m2 m3 =>
    cases m1 <;> cases m2 <;> cases m3 <;> decide
  | jumpIfTrue m1 m2 | jumpIfFalse m1 m2 => cases m1 <;> cases m2 <;> decide
  | read m1 | write m1 => cases m1 <;> decide
  | halt => decide

/-- The cells of the canonical instructions, in the order of the list, are the 28 of the table. -/
theorem canonicalInstrs_map_encode :
    canonicalInstrs.map encode = [1, 101, 1001, 1101, 2, 102, 1002, 1102, 3, 4, 104, 5, 105, 1005, 1105, 6, 106, 1006, 1106,
      7, 107, 1007, 1107, 8, 108, 1008, 1108, 99] := by decide

/-- Settles O18: the table is the list of the canonical instructions, encoded. -/
theorem canonicalCellsAreTheTwentyEight : Obligations.CanonicalCellsAreTheTwentyEight := by
  intro v
  simp only [← canonicalInstrs_map_encode, List.mem_map, mem_canonicalInstrs]

end Sys2Proof

/-! What each instruction does where it completes, and its frame (41_arithmetic.md to 44_compare.md). -/

namespace Sys2Proof.Machine

section

variable {s t : State} {m1 m2 : Mode}

/-- The frame of an instruction that stores `v` at parameter 3 and advances by 4. -/
theorem stored_frame (hwf : s.mem.wf) (hd : s.DstOk 2) (v : Int)
    (ht : t = advance { s with mem := s.mem.set (s.param 2).toNat v } 4) :
    OneCellWritten s t (s.param 2) v ∧ t.ip = s.ip + 4 ∧ SameControl s t ∧ t.out = s.out ∧ t.input = s.input := by
  subst ht
  exact ⟨oneCellWritten_set hwf hd.2 v _ rfl, rfl, ⟨rfl, rfl, rfl, rfl, rfl⟩, rfl, rfl⟩

/-- Add and Multiply: the exact result is stored and nothing else changes but `ip`. -/
theorem arithmetic_stores {op : Int → Int → Int} (hwf : s.mem.wf) (h1 : s.SrcOk 0 m1) (h2 : s.SrcOk 1 m2) (h3 : s.DstOk 2)
    (hr : s.cfg.InRange (op (s.operand 0 m1) (s.operand 1 m2))) :
    ∃ t, arithmetic op m1 m2 s = .next t ∧ OneCellWritten s t (s.param 2) (op (s.operand 0 m1) (s.operand 1 m2)) ∧
      t.ip = s.ip + 4 ∧ SameControl s t ∧ t.out = s.out ∧ t.input = s.input :=
  ⟨_, arithmetic_completes h1 h2 h3 hr, stored_frame hwf h3 _ rfl⟩

/-- LessThan and Equals, which test `p`: 1 is stored where it holds and 0 where not, and nothing else changes but `ip`. -/
theorem comparison_stores {p : Int → Int → Prop} [DecidableRel p] (hwf : s.mem.wf) (h1 : s.SrcOk 0 m1)
    (h2 : s.SrcOk 1 m2) (h3 : s.DstOk 2) :
    ∃ t, comparison (fun lhs rhs => decide (p lhs rhs)) m1 m2 s = .next t ∧
      (p (s.operand 0 m1) (s.operand 1 m2) → OneCellWritten s t (s.param 2) 1) ∧
      (¬p (s.operand 0 m1) (s.operand 1 m2) → OneCellWritten s t (s.param 2) 0) ∧
      t.ip = s.ip + 4 ∧ SameControl s t ∧ t.out = s.out ∧ t.input = s.input := by
  obtain ⟨hcell, hframe⟩ := stored_frame hwf h3 _ rfl
  refine ⟨_, comparison_completes h1 h2 h3, fun hp => ?_, fun hp => ?_, hframe⟩
  · simpa only [decide_eq_true hp, truthCell, if_true] using hcell
  · simpa only [decide_eq_false hp, truthCell, Bool.false_eq_true, if_false] using hcell

/-- JumpIfTrue and JumpIfFalse, which test `f`: the target or the next instruction, and nothing but `ip` changes. -/
theorem branch_selects {f : Int → Bool} (h1 : s.SrcOk 0 m1) (h2 : s.SrcOk 1 m2) :
    ∃ t, branch f m1 m2 s = .next t ∧ (f (s.operand 0 m1) = true → t.ip = s.operand 1 m2) ∧
      (f (s.operand 0 m1) = false → t.ip = s.ip + 3) ∧
      SameTape s t ∧ t.mem = s.mem ∧ SameControl s t ∧ t.out = s.out ∧ t.input = s.input := by
  refine ⟨_, branch_completes h1 h2, ?_⟩
  cases f (s.operand 0 m1) with
  | true => exact ⟨fun _ => rfl, nofun, ⟨rfl, fun _ _ => rfl⟩, rfl, ⟨rfl, rfl, rfl, rfl, rfl⟩, rfl, rfl⟩
  | false => exact ⟨nofun, fun _ => rfl, ⟨rfl, fun _ _ => rfl⟩, rfl, ⟨rfl, rfl, rfl, rfl, rfl⟩, rfl, rfl⟩

/-- A Read whose parameter cell is on the tape, held by the port. -/
theorem execRead_of_wait (m1 : Mode) (hp : s.ParamOk 0) (ha : InputSource.next s.cfg s.input = .wait) :
    execRead m1 s = .next (inRecv s).2 := by
  rw [execRead_of_param m1 hp, ha]

/-- A Read that the port fails. -/
theorem execRead_of_fail (m1 : Mode) (hp : s.ParamOk 0) {k : InputFailure} (ha : InputSource.next s.cfg s.input = .fail k) :
    execRead m1 s = .next (raise (inRecv s).2 (failureKind k)) := by
  rw [execRead_of_param m1 hp, ha]

/-- A Read that gets a value. -/
theorem execRead_of_value (m1 : Mode) (hp : s.ParamOk 0) {c : Int} (ha : InputSource.next s.cfg s.input = .value c) :
    execRead m1 s = attempt (inRecv s).2 (memWrite (inRecv s).2 (s.param 0) c) fun u => .next (advance u 2) := by
  rw [execRead_of_param m1 hp, ha]

/-- The fault of a Read that the port fails, with the answer used up. -/
theorem execRead_fails (m1 : Mode) (hp : s.ParamOk 0) {k : InputFailure} {q : InputSource}
    (ha : SourceAnswers s.cfg s.input (.fail k) q) :
    ∃ t, execRead m1 s = .next t ∧ FaultTaken { s with input := q } t (failureKind k) := by
  obtain ⟨hk, rfl⟩ := sourceAnswers_iff.mp ha
  exact ⟨_, execRead_of_fail m1 hp hk, raise_faultTaken _ _⟩

end

/-- Settles O23: `arithmetic_stores` at the sum. -/
theorem addStoresTheExactSum : Obligations.AddStoresTheExactSum := fun _ _ _ _ hwf h1 h2 h3 hr =>
  arithmetic_stores hwf h1 h2 h3 hr

/-- Settles O24: `arithmetic_stores` at the product. -/
theorem multiplyStoresTheExactProduct : Obligations.MultiplyStoresTheExactProduct := fun _ _ _ _ hwf h1 h2 h3 hr =>
  arithmetic_stores hwf h1 h2 h3 hr

/-- Settles O25: `comparison_stores` at the strict order. -/
theorem lessThanStoresTheTruthValue : Obligations.LessThanStoresTheTruthValue := fun _ _ _ _ hwf h1 h2 h3 =>
  comparison_stores (p := fun lhs rhs => lhs < rhs) hwf h1 h2 h3

/-- Settles O26: `comparison_stores` at equality. -/
theorem equalsStoresTheTruthValue : Obligations.EqualsStoresTheTruthValue := fun _ _ _ _ hwf h1 h2 h3 =>
  comparison_stores (p := fun lhs rhs => lhs = rhs) hwf h1 h2 h3

/-- Settles O27: the store after the request completes, its destination being valid. -/
theorem readStoresTheInputValue : Obligations.ReadStoresTheInputValue := by
  intro s m1 c q hwf hd ha
  obtain ⟨hc, rfl⟩ := sourceAnswers_iff.mp ha
  have hstore := memWrite_of_valid (s := (inRecv s).2) (a := s.param 0) hd.2 c
  refine ⟨_, by rw [exec, execRead_of_value m1 hd.1 hc, hstore, attempt_ok], ?_⟩
  exact ⟨oneCellWritten_set hwf hd.2 c _ rfl, rfl, rfl, ⟨rfl, rfl, rfl, rfl, rfl⟩, rfl⟩

/-- Settles O28: a held Read is the request alone. -/
theorem readIsHeldWhileThePortWaits : Obligations.ReadIsHeldWhileThePortWaits := by
  intro s m1 q hp ha
  obtain ⟨hw, rfl⟩ := sourceAnswers_iff.mp ha
  exact ⟨_, execRead_of_wait m1 hp hw, rfl, rfl, ⟨rfl, rfl, rfl, rfl, rfl⟩, rfl, rfl⟩

/-- Settles O29: one lemma for the three failures; the destination is not looked at. -/
theorem readRaisesThePortsFailure : Obligations.ReadRaisesThePortsFailure := fun _ m1 _ hp =>
  ⟨execRead_fails m1 hp, execRead_fails m1 hp, execRead_fails m1 hp⟩

/-- Settles O30: the store after the request faults, in the state with the value consumed. -/
theorem readWithBadDestinationLosesTheValue : Obligations.ReadWithBadDestinationLosesTheValue := by
  intro s m1 c q hp hd ha
  obtain ⟨hc, rfl⟩ := sourceAnswers_iff.mp ha
  have hstore := memWrite_of_invalid (s := (inRecv s).2) (a := s.param 0) hd c
  have hread : execRead m1 s = .next (raise (inRecv s).2 .addressOutOfBounds) := by
    rw [execRead_of_value m1 hp hc, hstore, attempt_error]
  exact ⟨_, hread, raise_faultTaken _ _⟩

/-- Settles O31: `execWrite_completes`. -/
theorem writeAppendsTheOperand : Obligations.WriteAppendsTheOperand := fun _ _ h =>
  ⟨_, execWrite_completes h, rfl, rfl, ⟨rfl, fun _ _ => rfl⟩, rfl, ⟨rfl, rfl, rfl, rfl, rfl⟩, rfl⟩

/-- Settles O32: `branch_selects` with the test against zero. -/
theorem jumpIfTrueSelectsTheTarget : Obligations.JumpIfTrueSelectsTheTarget := by
  intro s m1 m2 h1 h2
  obtain ⟨t, ht, htaken, hpassed, hframe⟩ := branch_selects (f := truthOf) h1 h2
  exact ⟨t, ht, fun h => htaken ((truthOf_eq_true _).mpr h), fun h => hpassed ((truthOf_eq_false _).mpr h), hframe⟩

/-- Settles O33: `branch_selects` with the inverted test. -/
theorem jumpIfFalseSelectsTheTarget : Obligations.JumpIfFalseSelectsTheTarget := by
  intro s m1 m2 h1 h2
  obtain ⟨t, ht, htaken, hpassed, hframe⟩ := branch_selects (f := fun lhs => !truthOf lhs) h1 h2
  exact ⟨t, ht, fun h => htaken (by simpa using h), fun h => hpassed (by simpa using h), hframe⟩

/-- Settles O44: `exec` drops the destination's mode. -/
theorem destinationModeHasNoEffect : Obligations.DestinationModeHasNoEffect := fun _ _ _ _ _ =>
  ⟨rfl, rfl, rfl, rfl, rfl⟩

/-! The step: fetch, decode, execute (40_execution_loop.md R70 to R72, R79). -/

/-- A fetch outside the tape is the step's fault (40_execution_loop.md R71). -/
theorem step_of_ip_invalid {s : State} (hr : s.status = .running) (hv : ¬s.Valid s.ip) :
    step s = .next (raise s .addressOutOfBounds) := by
  have hf : fetch s = .error .addressOutOfBounds := memRead_of_invalid hv
  rw [step_of_status hr, hf, attempt_error]

/-- A taken branch whose operands resolve is a jump to its second operand. -/
theorem exec_of_branchTaken {s : State} {i : Instr} {m1 m2 : Mode} (hi : i = .jumpIfTrue m1 m2 ∨ i = .jumpIfFalse m1 m2)
    (h1 : s.SrcOk 0 m1) (h2 : s.SrcOk 1 m2) (hb : BranchTaken i s) : exec i s = .next (jumpTo s (s.operand 1 m2)) := by
  rcases hi with rfl | rfl
  · have hf : truthOf (s.operand 0 m1) = true := (truthOf_eq_true _).mpr hb
    exact (branch_completes h1 h2).trans (by rw [hf]; rfl)
  · have hf : truthOf (s.operand 0 m1) = false := (truthOf_eq_false _).mpr hb
    exact (branch_completes h1 h2).trans (by rw [hf]; rfl)

/-- Settles O17: the decoder on negative cells, and the step by its decode fault. -/
theorem negativeCellFaults : Obligations.NegativeCellFaults :=
  ⟨fun _ => decode_of_neg, fun s hr hv h => ⟨_, step_of_decode_error hr hv (decode_of_neg h), raise_faultTaken s _⟩⟩

/-- Settles O19: a `Running` step whose fetch and decode succeed. -/
theorem stepRunsTheDecodedInstruction : Obligations.StepRunsTheDecodedInstruction := fun _ _ => step_of_decode_ok

/-- Settles O20: an `ip` below 0 or from `LEN` on is not valid. -/
theorem fetchOutsideTheTapeFaults : Obligations.FetchOutsideTheTapeFaults := fun s hr h =>
  ⟨_, step_of_ip_invalid hr (not_valid_iff.mpr h), raise_faultTaken s _⟩

/-- Settles O43: the jump is taken whatever its target, and the fetch there faults. -/
theorem badJumpTargetFaultsAtTheNextFetch : Obligations.BadJumpTargetFaultsAtTheNextFetch := by
  intro s i m1 m2 hi hr hv hdec h1 h2 hb hbad
  have hjump : step s = .next (jumpTo s (s.operand 1 m2)) :=
    (step_of_decode_ok hr hv hdec).trans (exec_of_branchTaken hi h1 h2 hb)
  have hfault := step_of_ip_invalid (s := jumpTo s (s.operand 1 m2)) hr hbad
  exact ⟨_, _, hjump, hr, rfl, hfault, raise_faultTaken _ _, rfl⟩

/-- Settles O12: the sum stands in the cell at the new `ip`, so the next step fetches it. -/
theorem storeIsSeenByTheNextFetch : Obligations.StoreIsSeenByTheNextFetch := by
  intro s m1 m2 m3 hwf hr hv hdec h1 h2 h3 hnext hin
  obtain ⟨t, ht, ⟨hlen, hcell, -⟩, hip, ⟨-, -, hst, -⟩, -⟩ := addStoresTheExactSum s m1 m2 m3 hwf h1 h2 h3 hin
  have hat : s.param 2 = t.ip := hnext.trans hip.symm
  have hv' : t.Valid t.ip := by rw [← hat, State.Valid, hlen]; exact h3.2
  rw [hat] at hcell
  refine ⟨t, (step_of_decode_ok hr hv hdec).trans ht, hip, fun j hj => ?_, fun k hk => ?_⟩
  · exact step_of_decode_ok (hst.trans hr) hv' (hcell ▸ hj)
  · exact ⟨_, step_of_decode_error (hst.trans hr) hv' (hcell ▸ hk), raise_faultTaken t k⟩

end Sys2Proof.Machine

/-! Runs under fuel (40_execution_loop.md R80, R83). -/

namespace Sys2Proof.Machine

section

variable {s t : State}

/-- The state a run has come to, ended or not. -/
def RunEnd.state (e : RunEnd) : State :=
  match e with
  | .ended s => s
  | .notFinished s => s

/-- A run is unfinished exactly where its state is still `Running`. -/
theorem runFor_eq (n : Nat) (s : State) :
    (runFor n s = .ended (runFor n s).state ∧ (runFor n s).state.status ≠ .running) ∨
      (runFor n s = .notFinished (runFor n s).state ∧ (runFor n s).state.status = .running) := by
  induction n generalizing s with
  | zero =>
    by_cases hr : s.status = .running
    · exact .inr (by rw [runFor_zero_of_running hr]; exact ⟨rfl, hr⟩)
    · exact .inl (by rw [runFor_of_terminal 0 hr]; exact ⟨rfl, hr⟩)
  | succ n ih =>
    by_cases hr : s.status = .running
    · obtain ⟨u, hu⟩ := step_of_running hr
      rw [runFor_of_next n hu]
      exact ih u
    · exact .inl (by rw [runFor_of_terminal _ hr]; exact ⟨rfl, hr⟩)

/-- A run that ended did so in a terminal state. -/
theorem status_of_ended {n : Nat} (h : runFor n s = .ended t) : t.status ≠ .running := by
  obtain ⟨-, hst⟩ | ⟨hne, -⟩ := runFor_eq n s
  · rwa [h] at hst
  · exact nomatch h.symm.trans hne

/-- A run that is not finished is still `Running`. -/
theorem status_of_notFinished {n : Nat} (h : runFor n s = .notFinished t) : t.status = .running := by
  obtain ⟨he, -⟩ | ⟨-, hst⟩ := runFor_eq n s
  · exact nomatch h.symm.trans he
  · rwa [h] at hst

/-- What every step keeps holds all along a run. -/
theorem runFor_keeps {P : State → Prop} (hstep : ∀ s t, P s → step s = .next t → P t) (n : Nat) (hs : P s) :
    P (runFor n s).state := by
  induction n generalizing s with
  | zero => unfold runFor; split <;> exact hs
  | succ n ih =>
    by_cases hr : s.status = .running
    · obtain ⟨u, hu⟩ := step_of_running hr
      rw [runFor_of_next n hu]
      exact ih (hstep s u hs hu)
    · rw [runFor_of_terminal _ hr]
      exact hs

/-- Fuel that is left over changes nothing. -/
theorem runFor_add {n : Nat} (m : Nat) (h : runFor n s = .ended t) : runFor (n + m) s = .ended t := by
  induction n generalizing s with
  | zero =>
    by_cases hr : s.status = .running
    · rw [runFor_zero_of_running hr] at h
      exact nomatch h
    · rwa [runFor_of_terminal _ hr] at h ⊢
  | succ n ih =>
    by_cases hr : s.status = .running
    · obtain ⟨u, hu⟩ := step_of_running hr
      rw [runFor_of_next n hu] at h
      rw [Nat.add_right_comm, runFor_of_next (n + m) hu]
      exact ih h
    · rwa [runFor_of_terminal _ hr] at h ⊢

/-- A Read whose port answers `wait` for ever leaves the whole state as it is. -/
theorem step_held_forever {m : Mode} (hr : s.status = .running) (hv : s.Valid s.ip)
    (hdec : decode (s.cell s.ip) = .ok (.read m)) (hp : s.ParamOk 0)
    (hin : s.input = { answers := [], thereafter := .always .wait }) : step s = .next s := by
  have hwait : InputSource.next s.cfg s.input = .wait := by rw [hin]; rfl
  have hrest : InputSource.rest s.input = s.input := by rw [hin]; rfl
  have hsame : (inRecv s).2 = s := by rw [inRecv, hrest]
  rw [step_of_decode_ok hr hv hdec, exec, execRead_of_wait m hp hwait, hsame]

end

/-- Settles O5: fuel left over, the status by the end of the run, and the invariant by `runFor_keeps`. -/
theorem fuelNeverChangesHowARunEnds : Obligations.FuelNeverChangesHowARunEnds := by
  refine ⟨fun n m s t h => ⟨runFor_add m h, status_of_ended h⟩, fun n s t => status_of_notFinished, fun n s t hs h => ?_⟩
  have hinv : (runFor n s).state.Inv := runFor_keeps (P := State.Inv) (fun _ _ => step_inv) n hs
  rcases h with h | h <;> rwa [h] at hinv

/-- Settles O47: each step of fuel is one held Read, after which nothing has changed. -/
theorem heldReadNeverEnds : Obligations.HeldReadNeverEnds := by
  intro s m n hr hv hdec hp hin
  induction n with
  | zero => exact runFor_zero_of_running hr
  | succ n ih => rw [runFor_of_next n (step_held_forever hr hv hdec hp hin), ih]

/-! The input port is used by Read alone (42_io.md section 1). -/

/-- An outcome that is a function of the source, and hands the source on as it is. -/
def IgnoresInput (r : InputSource → Result) : Prop := ∃ t : State, ∀ q, r q = .next { t with input := q }

/-- A part of an instruction that does not look at the source may raise. -/
theorem ignoresInput_attempt {α : Type} (s : State) (x : Except FaultKind α) {go : InputSource → α → Result}
    (h : ∀ a, IgnoresInput fun q => go q a) : IgnoresInput fun q => attempt { s with input := q } x (go q) := by
  cases x with
  | ok a => exact h a
  | error k => exact ⟨raise s k, fun _ => rfl⟩

/-- A store to the tape, with the advance after it, does not look at the source. -/
theorem ignoresInput_store (s : State) (a v : Int) (n : Nat) :
    IgnoresInput fun q =>
      attempt { s with input := q } (memWrite { s with input := q } a v) fun u => .next (advance u n) := by
  by_cases hv : s.Valid a
  · simp only [fun q => memWrite_of_valid (s := { s with input := q }) hv v, attempt_ok]
    exact ⟨advance { s with mem := s.mem.set a.toNat v } n, fun _ => rfl⟩
  · simp only [fun q => memWrite_of_invalid (s := { s with input := q }) hv v, attempt_error]
    exact ⟨raise s .addressOutOfBounds, fun _ => rfl⟩

/-- No instruction but Read looks at the source. -/
theorem exec_ignoresInput {i : Instr} (hi : ∀ m, i ≠ .read m) (s : State) :
    IgnoresInput fun q => exec i { s with input := q } := by
  cases i with
  | add m1 m2 | multiply m1 m2 =>
    exact ignoresInput_attempt s (src s 0 m1) fun _ => ignoresInput_attempt s (src s 1 m2) fun _ =>
      ignoresInput_attempt s (dst s 2) fun d => ignoresInput_attempt s (checkRange s.cfg _) fun r =>
        ignoresInput_store s d r 4
  | lessThan m1 m2 | equals m1 m2 =>
    exact ignoresInput_attempt s (src s 0 m1) fun _ => ignoresInput_attempt s (src s 1 m2) fun _ =>
      ignoresInput_attempt s (dst s 2) fun d => ignoresInput_store s d (truthCell _) 4
  | jumpIfTrue m1 m2 | jumpIfFalse m1 m2 =>
    refine ignoresInput_attempt s (src s 0 m1) fun _ => ignoresInput_attempt s (src s 1 m2) fun target => ?_
    split
    · exact ⟨jumpTo s target, fun _ => rfl⟩
    · exact ⟨advance s 3, fun _ => rfl⟩
  | read m => exact absurd rfl (hi m)
  | write m1 => exact ignoresInput_attempt s (src s 0 m1) fun val => ⟨advance (outSend s val) 2, fun _ => rfl⟩
  | halt => exact ⟨enterHalted s, fun _ => rfl⟩

/-- Settles O46: the outcome hands on the source it is given, the state's own or any other. -/
theorem inputIsUsedByReadAlone : Obligations.InputIsUsedByReadAlone := by
  intro i s t q hi h
  obtain ⟨u, hu⟩ := exec_ignoresInput hi s
  have ht : t = { u with input := s.input } := Host.Outcome.next.inj (h.symm.trans (hu s.input))
  subst ht
  exact ⟨rfl, hu q⟩

/-! The loader (70_reset_and_hazards.md section 2). -/

/-- A token that is taken is a Cell (70_reset_and_hazards.md R153). -/
theorem parseCell_inRange {c : Config} {cs : List Char} {v : Int} (h : parseCell c cs = .ok v) : c.InRange v := by
  unfold parseCell at h
  split at h
  case h_1 w _ =>
    by_cases hw : c.InRange w
    · rw [if_pos hw] at h
      exact Except.ok.inj h ▸ hw
    · rw [if_neg hw] at h
      exact nomatch h
  case h_2 => exact nomatch h

/-- The tokens that are taken give one Cell each. -/
theorem parseTokens_cells {c : Config} {toks : List (List Char)} {image : List Int} (h : parseTokens c toks = .ok image) :
    image.length = toks.length ∧ ∀ v ∈ image, c.InRange v := by
  induction toks generalizing image with
  | nil => cases h; exact ⟨rfl, nofun⟩
  | cons tok rest ih =>
    unfold parseTokens at h
    split at h
    case h_1 => exact nomatch h
    case h_2 v hv =>
      split at h
      case h_1 => exact nomatch h
      case h_2 vs hvs =>
        cases h
        obtain ⟨hlen, hin⟩ := ih hvs
        exact ⟨congrArg (· + 1) hlen, List.forall_mem_cons.mpr ⟨parseCell_inRange hv, hin⟩⟩

/-- A line has at least one token, which may be empty. -/
theorem splitTokens_ne_nil (cs : List Char) : splitTokens cs ≠ [] := by
  cases cs with
  | nil => nofun
  | cons ch rest =>
    unfold splitTokens
    split
    · nofun
    · split <;> nofun

/-- Settles O49: an image has one Cell for each of the tokens, of which there is at least one. -/
theorem loadedListingsHoldCells : Obligations.LoadedListingsHoldCells := by
  intro c text image h
  obtain ⟨hlen, hin⟩ := parseTokens_cells h
  exact ⟨hlen ▸ List.length_pos_of_ne_nil (splitTokens_ne_nil _), hin⟩

/-! The search harness (70_reset_and_hazards.md section 5). -/

/-- What the host reads at a cell is that cell of a halted run. -/
theorem readTape_eq_some {s : State} {a v : Int} (h : readTape s a = some v) : s.status = .halted ∧ s.cell a = v := by
  by_cases hc : s.status = .halted ∧ s.Valid a
  · exact ⟨hc.1, Option.some.inj ((readTape_of_halted hc.1 hc.2).symm.trans h)⟩
  · rw [readTape, if_neg hc] at h
    exact nomatch h

/-- The candidate's run ended without the target at cell 0. -/
def Mismatch (h : HarnessArgs) (p : Nat × Nat) : Prop :=
  ∃ e, candidateRun h p.1 p.2 = some (.ended e) ∧ readTape e 0 ≠ some h.target

/-- A sweep goes on past a candidate only when its run ended without the target at cell 0. -/
theorem sweep_cons_found {h : HarnessArgs} {p : Nat × Nat} {cs : List (Nat × Nat)} {a b : Nat}
    (hs : sweep h (p :: cs) = .found a b) :
    (p = (a, b) ∧ ∃ e, candidateRun h a b = some (.ended e) ∧ readTape e 0 = some h.target) ∨
      (Mismatch h p ∧ sweep h cs = .found a b) := by
  obtain ⟨x, y⟩ := p
  unfold sweep at hs
  split at hs
  case h_1 => exact nomatch hs
  case h_2 => exact nomatch hs
  case h_3 e he =>
    split at hs
    case isTrue hmatch => cases hs; exact .inl ⟨rfl, e, he, hmatch⟩
    case isFalse hne =>
      split at hs
      · exact nomatch hs
      · exact .inr ⟨⟨e, he, hne⟩, hs⟩

/-- A pair that a sweep finds splits its candidates: the pair's own run matches, and none before it does. -/
theorem sweep_found {h : HarnessArgs} {cs : List (Nat × Nat)} {a b : Nat} (hs : sweep h cs = .found a b) :
    ∃ before after, cs = before ++ (a, b) :: after ∧ (∀ p ∈ before, Mismatch h p) ∧
      ∃ e, candidateRun h a b = some (.ended e) ∧ readTape e 0 = some h.target := by
  induction cs with
  | nil => exact nomatch hs
  | cons p rest ih =>
    obtain ⟨rfl, hmatch⟩ | ⟨hmis, hs⟩ := sweep_cons_found hs
    · exact ⟨[], rest, rfl, nofun, hmatch⟩
    · obtain ⟨before, after, rfl, hbefore, hmatch⟩ := ih hs
      exact ⟨p :: before, after, rfl, List.forall_mem_cons.mpr ⟨hmis, hbefore⟩, hmatch⟩

/-- Row-major order: by the first number, then by the second (70_reset_and_hazards.md R160). -/
def RowMajor (p q : Nat × Nat) : Prop := p.1 < q.1 ∨ (p.1 = q.1 ∧ p.2 < q.2)

/-- The candidates are the pairs of numbers below 100. -/
theorem mem_candidates {a b : Nat} : (a, b) ∈ candidates ↔ a < 100 ∧ b < 100 := by
  simp [candidates]

/-- The candidates stand in row-major order. -/
theorem candidates_rowMajor : candidates.Pairwise RowMajor := by
  refine List.pairwise_flatMap.mpr ⟨fun a _ => ?_, ?_⟩
  · exact List.pairwise_map.mpr (List.pairwise_lt_range.imp fun hb => .inr ⟨rfl, hb⟩)
  · refine List.pairwise_lt_range.imp fun ha p hp q hq => .inl ?_
    obtain ⟨_, -, rfl⟩ := List.mem_map.mp hp
    obtain ⟨_, -, rfl⟩ := List.mem_map.mp hq
    exact ha

/-- In a list in row-major order, what comes before a member in that order comes before it in the list. -/
theorem mem_before_of_rowMajor {before after : List (Nat × Nat)} {p q : Nat × Nat}
    (hsorted : (before ++ p :: after).Pairwise RowMajor) (hq : q ∈ before ++ p :: after) (hlt : RowMajor q p) :
    q ∈ before := by
  rcases List.mem_append.mp hq with hq | hq
  · exact hq
  · obtain ⟨-, hsorted, -⟩ := List.pairwise_append.mp hsorted
    obtain ⟨hgt, -⟩ := List.pairwise_cons.mp hsorted
    unfold RowMajor at hlt hgt
    rcases List.mem_cons.mp hq with rfl | hq
    · omega
    · have hgt := hgt q hq
      omega

/-- Settles O50: the sweep splits the candidates at the pair it finds, and the order of the list is row-major. -/
theorem harnessReturnsTheFirstMatch : Obligations.HarnessReturnsTheFirstMatch := by
  intro h a b hfound
  unfold harness at hfound
  split at hfound
  case isFalse => exact nomatch hfound
  obtain ⟨before, after, hsplit, hbefore, e, hrun, hmatch⟩ := sweep_found hfound
  have hab : (a, b) ∈ candidates := by rw [hsplit]; simp
  obtain ⟨ha, hb⟩ := mem_candidates.mp hab
  refine ⟨ha, hb, ⟨e, hrun, readTape_eq_some hmatch⟩, fun a' b' ha' hb' hlt => ?_⟩
  have hbefore_ab : RowMajor (a', b') (a, b) := hlt
  have hmem : (a', b') ∈ before :=
    mem_before_of_rowMajor (hsplit ▸ candidates_rowMajor) (hsplit ▸ mem_candidates.mpr ⟨ha', hb'⟩) hbefore_ab
  exact hbefore _ hmem

end Sys2Proof.Machine
